-- ==== Sys2Proof/Word.lean ====
section
/-!
DEFINITION. The fixed widths of the core (rule R7) and the two enumerations its control registers range over
(rules R24, R26). Nothing here computes anything.
-/
namespace Sys2Proof

/-- One byte of a host buffer. -/
abbrev Byte := BitVec 8

/-- A 64-bit block, key operand or result (rule R7). -/
abbrev Block := BitVec 64

/-- One 32-bit half of a block, `L` or `R` (rule R7). -/
abbrev Half := BitVec 32

/-- One 28-bit half of the reduced key, `C` or `D` (rule R7). -/
abbrev KeyHalf := BitVec 28

/-- A 48-bit round subkey, and any other 48-bit value: the expanded half, the keyed half (rule R7). -/
abbrev Subkey := BitVec 48

/-- The 66-bit command word `W = cmd_op || cmd_data` (rule R70). -/
abbrev CmdWord := BitVec 66

/-- The control state `st` (rule R24). Its binary encoding is not architectural. -/
inductive ControlState where
  | idle
  | keygen
  | round
deriving DecidableEq, Repr, Inhabited

/-- The 1-bit register `mode` (rule R26): bit value 0 is encrypt, bit value 1 is decrypt. -/
inductive Mode where
  | encrypt
  | decrypt
deriving DecidableEq, Repr, Inhabited

end Sys2Proof
end

