-- ==== Sys2Proof/Syntax.lean ====
section
/-!
DEFINITION. The four commands of the core, one constructor per row of the opcode map (rule R71), and the raw form of a
command word as a host writes it in text, `op:data` (rule R75).
-/
namespace Sys2Proof

/-- A command. The `data` field is the whole 64-bit operand (rule R72): a key for KEY, a block for ENC and DEC.
RSVD carries it too, because the word has it, and ignores it. -/
inductive Instr where
  /-- `op` = 0b00, rule R130. -/
  | key (data : Block)
  /-- `op` = 0b01, rule R170. -/
  | enc (data : Block)
  /-- `op` = 0b10, rule R171. -/
  | dec (data : Block)
  /-- `op` = 0b11, rule R172. -/
  | rsvd (data : Block)
deriving DecidableEq, Repr

/-- The `data` field of a command. -/
def Instr.data : Instr → Block
  | .key data => data
  | .enc data => data
  | .dec data => data
  | .rsvd data => data

/-- A command word as two plain numbers, the written form `op:data` of rule R75. -/
structure RawCommand where
  op : Nat
  data : Nat
deriving DecidableEq, Repr

end Sys2Proof
end

