-- ==== Sys2Proof/WellFormed.lean ====
section
/-!
DEFINITION. What is well-formed: every `Instr` (rule R73: decoding is total, no word is refused), and a raw command whose
two numbers fit their fields (rule R70: 2 bits of `op`, 64 bits of `data`).
-/
namespace Sys2Proof

/-- No command value is ill-formed: the widths are in the types and every operand value is accepted (rules R72, R73, R130,
R170). -/
def Instr.wellFormed : Instr → Bool
  | .key _ => true
  | .enc _ => true
  | .dec _ => true
  | .rsvd _ => true

/-- The `op` number fits the 2-bit field (rule R70). -/
def RawCommand.opFits (c : RawCommand) : Bool := c.op < 4

/-- The `data` number fits the 64-bit field (rule R70). -/
def RawCommand.dataFits (c : RawCommand) : Bool := c.data < 2 ^ 64

/-- A raw command is a command word when both fields fit. -/
def RawCommand.wellFormed (c : RawCommand) : Bool := c.opFits && c.dataFits

end Sys2Proof
end

