-- ==== Sys2Proof/Decode.lean ====
section
/-!
DEFINITION. Decoding and encoding of the 66-bit command word (rules R70, R71, R73). Decoding of a word is total; what is
rejected, by name, is a number that is no 66-bit word.
-/
namespace Sys2Proof

/-- The field `op` = `W[65:64]` (rule R70). -/
def opField (w : CmdWord) : BitVec 2 := w.extractLsb' 64 2

/-- The field `data` = `W[63:0]` (rule R70). -/
def dataField (w : CmdWord) : Block := w.extractLsb' 0 64

/-- `W = cmd_op || cmd_data` (rule R70). -/
def assemble (op : BitVec 2) (data : Block) : CmdWord := op ++ data

/-- The opcode map (rule R71), total over the four values of `op`. -/
def decodeFields (op : BitVec 2) (data : Block) : Instr :=
  match op.toNat with
  | 0 => .key data
  | 1 => .enc data
  | 2 => .dec data
  | _ => .rsvd data

/-- Decode a command word: every word is one of the four rows (rule R73). -/
def decode (w : CmdWord) : Instr := decodeFields (opField w) (dataField w)

/-- Why a number or a raw command is no command word. -/
inductive DecodeError where
  /-- The number needs more than the 66 bits of a command word. -/
  | widerThanCommandWord
  /-- The raw `op` does not fit 2 bits. -/
  | opTooWide
  /-- The raw `data` does not fit 64 bits. -/
  | dataTooWide
deriving DecidableEq, Repr

/-- Decode a natural number as a command word, rejecting what does not fit 66 bits (log entry 9). -/
def decodeNat (w : Nat) : Except DecodeError Instr :=
  if w < 2 ^ 66 then .ok (decode (BitVec.ofNat 66 w)) else .error .widerThanCommandWord

/-- Decode the written form `op:data` (rule R75), rejecting by name the field that does not fit. -/
def decodeRaw (c : RawCommand) : Except DecodeError Instr :=
  if !c.opFits then .error .opTooWide
  else if !c.dataFits then .error .dataTooWide
  else .ok (decodeFields (BitVec.ofNat 2 c.op) (BitVec.ofNat 64 c.data))

/-- The instruction the decoder reads from a table word of `nbits` bits, bit 0 the least significant bit of `W`. -/
def decodeTableWord (nbits w : Nat) : Option Instr :=
  match decodeNat (w % 2 ^ nbits) with
  | .ok i => some i
  | .error _ => none

/-- The value of `op` that selects a command (rule R71). -/
def Instr.opcode : Instr → BitVec 2
  | .key _ => 0b00#2
  | .enc _ => 0b01#2
  | .dec _ => 0b10#2
  | .rsvd _ => 0b11#2

/-- The command word of a command (rules R70, R71). -/
def encode (i : Instr) : CmdWord := assemble i.opcode i.data

/-- The written form `op:data` of a command (rule R75). -/
def Instr.toRaw (i : Instr) : RawCommand := ⟨i.opcode.toNat, i.data.toNat⟩

end Sys2Proof
end

