-- ==== Sys2Proof/Config.lean ====
section
/-!
DEFINITION. The free values of the model: what the spec leaves "unspecified" (rules R38, R260, R263; U5, U6).
Each is an opaque constant with no body, applied to the draw counter `State.freeIx`, so nothing can be proved of a value.
Log entries 2 and 4 say where they are drawn.
-/
namespace Sys2Proof.Config

/-- `KS[0..15]` after a reset edge or while the core is powered and not yet reset. -/
opaque freeKS : Nat → Vector Subkey 16

/-- `C` after a reset edge or before the first one. -/
opaque freeC : Nat → KeyHalf

/-- `D` after a reset edge or before the first one. -/
opaque freeD : Nat → KeyHalf

/-- `L` after a reset edge or before the first one. -/
opaque freeL : Nat → Half

/-- `R` after a reset edge or before the first one. -/
opaque freeR : Nat → Half

/-- `mode` after a reset edge or before the first one. -/
opaque freeMode : Nat → Mode

/-- `st` between power-up and the first reset edge (rule R263). -/
opaque freeSt : Nat → ControlState

/-- `ctr` between power-up and the first reset edge (rule R263). -/
opaque freeCtr : Nat → BitVec 4

/-- `key_valid` between power-up and the first reset edge (rule R263). -/
opaque freeKeyValid : Nat → Bool

/-- `dout` between power-up and the first reset edge (rule R263). -/
opaque freeDout : Nat → Block

/-- `dout_valid` between power-up and the first reset edge (rule R263). -/
opaque freeDoutValid : Nat → Bool

/-- `err` between power-up and the first reset edge (rule R263). -/
opaque freeErr : Nat → BitVec 2

end Sys2Proof.Config
end

