-- ==== Sys2Proof/Machine/State.lean ====
section
/-!
DEFINITION. The state of the core: every register of the spec's state file (rules R24 to R35), the host's inputs still to
come (rules R15, R22), and two fields of the model's own, `resetSeen` and `freeIx` (log entries 3 and 4).
The core has no addressable memory (rule R50), no program counter (rule R24) and no register file but `KS` (rule R36).
-/
namespace Sys2Proof.Machine

/-- The host-driven input ports during one cycle (rule R22). -/
structure Pins where
  rst : Bool
  cmdValid : Bool
  cmdOp : BitVec 2
  cmdData : Block
deriving DecidableEq, Repr

/-- What the world outside does in one step of the model. -/
inductive HostEvent where
  /-- A rising edge of `clk`, with these values on the input ports in the cycle before it (rules R20, R259). -/
  | edge (pins : Pins)
  /-- `clk` stands still: no edge (rule R244). -/
  | clkStopped
  /-- Power is removed and comes back (rules R244, R263). -/
  | powerCycle
deriving DecidableEq, Repr

/-- The registers of the core, and the host's inputs that are still to come. -/
structure State where
  /-- Control state (rule R24). -/
  st : ControlState
  /-- Round and subkey counter (rule R25). -/
  ctr : BitVec 4
  /-- Subkey order of the block in progress (rule R26). -/
  mode : Mode
  /-- Left half of the rotating key (rule R29). -/
  C : KeyHalf
  /-- Right half of the rotating key (rule R29). -/
  D : KeyHalf
  /-- The subkey file `KS[0..15]` (rule R30). -/
  KS : Vector Subkey 16
  /-- `key_valid` (rules R31, R34). -/
  keyValid : Bool
  /-- Left half of the block in progress (rule R32). -/
  L : Half
  /-- Right half of the block in progress (rule R32). -/
  R : Half
  /-- The output block register (rule R32). -/
  dout : Block
  /-- `dout_valid` (rule R33). -/
  doutValid : Bool
  /-- Status code of the last accepted command (rule R35). -/
  err : BitVec 2
  /-- The model's own: a reset edge has occurred since power-up (rule R263, log entry 4). -/
  resetSeen : Bool
  /-- The model's own: how many free values have been drawn (log entry 3). -/
  freeIx : Nat
  /-- The host's inputs, the current cycle first; when the list is empty the host offers nothing (log entry 5). -/
  inputs : List HostEvent
deriving DecidableEq, Repr

/-- The core has no trap and no rule stops it (rules R230, R231), so there is no fault: the type is empty (log entry 8). -/
inductive Fault : Type
deriving DecidableEq, Repr

/-- Runs to which the spec gives no meaning. -/
inductive Refusal where
  /-- Raised by an arm of `exec` for an instruction without a meaning; no arm raises it. Safe: the run stops. -/
  | notModelled (mnemonic : String)
  /-- Raised by `step` when the host offers a command before the first reset edge (rule R263, U6). Safe: the run stops,
  as the rule asks. -/
  | commandBeforeReset
  /-- Raised by `waitReady` (the WAIT and READ directives of a host script) when it would read `cmd_ready` before the first
  reset edge, by READ when it would sample the outputs, and by the driver that reuses a key when it would read `key_valid`
  (rule R263, U6). Safe: the run stops, as the rule asks. -/
  | readBeforeReset
deriving DecidableEq, Repr

/-- The state right after a reset edge, with `rst` released and nothing offered (rules R38, R261). The elements the rule
calls unspecified (`mode`, `C`, `D`, `KS`, `L`, `R`) hold the values of log entry 1, a DESIGN CHOICE. -/
def State.reset : State where
  st := .idle
  ctr := 0
  mode := .encrypt
  C := 0
  D := 0
  KS := Vector.replicate 16 0
  keyValid := false
  L := 0
  R := 0
  dout := 0
  doutValid := false
  err := 0
  resetSeen := true
  freeIx := 0
  inputs := []

end Sys2Proof.Machine
end

