-- ==== Sys2Proof/Machine/Flags.lean ====
section
/-!
DEFINITION. The error codes (rule R230), `cmd_ready` (rule R28), the values on the output ports (rule R22) and the 8-bit
STATUS word (rule R23).
-/
namespace Sys2Proof.Machine

/-- The three codes that `err` takes (rule R230). -/
inductive CoreError where
  | ok
  | nokey
  | illegal
deriving DecidableEq, Repr

/-- The 2-bit code of an error (rules R35, R230). -/
def CoreError.code : CoreError → BitVec 2
  | .ok => 0
  | .nokey => 1
  | .illegal => 2

/-- `cmd_ready = (st = IDLE) and (rst = 0)`, combinational in `rst` (rule R28). -/
def cmdReady (rst : Bool) (s : State) : Bool := decide (s.st = .idle) && !rst

/-- The values on the output ports in one cycle (rule R22). -/
structure Outputs where
  cmdReady : Bool
  dout : Block
  doutValid : Bool
  keyValid : Bool
  err : BitVec 2
deriving DecidableEq, Repr

/-- The output ports: `dout`, `dout_valid`, `key_valid` and `err` show the registers (rules R20, R22, R28). -/
def outputs (rst : Bool) (s : State) : Outputs where
  cmdReady := cmdReady rst s
  dout := s.dout
  doutValid := s.doutValid
  keyValid := s.keyValid
  err := s.err

/-- The STATUS word (rule R23): bits 7:5 read 0, bits 4:3 ERR, bit 2 DOUT_VALID, bit 1 KEY_VALID, bit 0 READY. -/
def statusWord (rst : Bool) (s : State) : BitVec 8 :=
  0#3 ++ s.err ++ BitVec.ofBool s.doutValid ++ BitVec.ofBool s.keyValid ++ BitVec.ofBool (cmdReady rst s)

end Sys2Proof.Machine
end

