-- ==== Sys2Proof/Machine/Ops.lean ====
section
/-!
DEFINITION. The operations the commands and the clock edges share: raising an error, the subkey file, the reset edge, the
unreset core, and taking the host's next input.
-/
namespace Sys2Proof.Machine

/-- `raise E` (rules R12, R231): `err` takes the code and nothing else changes. The core has no trap entry and no return
from error (rule R234): the next accepted command overwrites `err`. -/
def raiseError (e : CoreError) (s : State) : State := { s with err := e.code }

/-- The index of a subkey as a number below 16 (rules R25, R30). -/
def ksIndex (j : BitVec 4) : Fin 16 := j.toFin

/-- `KS[j]` (rule R30). -/
def readKS (s : State) (j : BitVec 4) : Subkey := s.KS[ksIndex j]

/-- The subkey file after `KS[j] <- v` (rule R30). -/
def writeKS (s : State) (j : BitVec 4) (v : Subkey) : Vector Subkey 16 := s.KS.set (ksIndex j) v

/-- A rising edge with `rst` = 1 (rules R38, R260): the specified elements take their reset values; `mode`, `C`, `D`, `KS`,
`L` and `R` are unspecified and take free values (log entry 2). -/
def resetEdge (s : State) : State where
  st := .idle
  ctr := 0
  mode := Config.freeMode s.freeIx
  C := Config.freeC s.freeIx
  D := Config.freeD s.freeIx
  KS := Config.freeKS s.freeIx
  keyValid := false
  L := Config.freeL s.freeIx
  R := Config.freeR s.freeIx
  dout := 0
  doutValid := false
  err := CoreError.ok.code
  resetSeen := true
  freeIx := s.freeIx + 1
  inputs := s.inputs

/-- The core between power-up and the first reset edge: every state element is unspecified (rule R263, log entry 4). -/
def unresetCore (s : State) : State where
  st := Config.freeSt s.freeIx
  ctr := Config.freeCtr s.freeIx
  mode := Config.freeMode s.freeIx
  C := Config.freeC s.freeIx
  D := Config.freeD s.freeIx
  KS := Config.freeKS s.freeIx
  keyValid := Config.freeKeyValid s.freeIx
  L := Config.freeL s.freeIx
  R := Config.freeR s.freeIx
  dout := Config.freeDout s.freeIx
  doutValid := Config.freeDoutValid s.freeIx
  err := Config.freeErr s.freeIx
  resetSeen := false
  freeIx := s.freeIx + 1
  inputs := s.inputs

/-- Input ports on which nothing is offered and `rst` is low. -/
def Pins.quiet : Pins := ⟨false, false, 0, 0⟩

/-- Input ports with `rst` high and nothing offered (rule R76, RESET). -/
def Pins.reset : Pins := ⟨true, false, 0, 0⟩

/-- Input ports that offer a command (rules R27, R70). -/
def Pins.offer (i : Instr) : Pins := ⟨false, true, i.opcode, i.data⟩

/-- The command word on the input ports (rule R70). -/
def Pins.word (p : Pins) : CmdWord := assemble p.cmdOp p.cmdData

/-- What the host does in this step: the first input, or, when none is left, an edge with nothing offered (log entry 5). -/
def currentEvent (s : State) : HostEvent := s.inputs.headD (.edge Pins.quiet)

/-- The state with the current input consumed. -/
def takeInput (s : State) : State := { s with inputs := s.inputs.tail }

end Sys2Proof.Machine
end

