-- ==== Sys2Proof/Machine/Permutation.lean ====
section
/-!
DEFINITION. Sequence numbering, the permutation primitive and the 28-bit rotation (rules R9, R10, R11), and the
permutation_unit: the six tables IP, FP, E, P, PC1, PC2 (rules R100 to R107), as 0-based sequence indices.
-/
namespace Sys2Proof.Machine

/-- `seq(v, i)`: bit `i` counted from the most significant bit (rule R9). -/
def seq {n : Nat} (v : BitVec n) (i : Nat) : Bool := v.getMsbD i

/-- A table of `m` sequence indices from a list of that length. -/
def table {m : Nat} (entries : List Nat) (h : entries.length = m) : Vector Nat m := ⟨⟨entries⟩, h⟩

/-- `Permute(T, v)`: the value whose sequence bit `i` is `seq(v, T[i])` (rule R11), built from the most significant
bit down. -/
def permute {m n : Nat} (t : Vector Nat m) (v : BitVec n) : BitVec m :=
  t.toList.foldl (fun w i => w.shiftConcat (seq v i)) 0

/-- `rotl28(v, s)` (rule R10). -/
def rotl28 (v : KeyHalf) (s : Nat) : KeyHalf := (v <<< s) ||| (v >>> (28 - s))

/-- Initial permutation (rule R102). -/
def ipTable : Vector Nat 64 := table
  ([57, 49, 41, 33, 25, 17, 9, 1] ++ [59, 51, 43, 35, 27, 19, 11, 3] ++
   [61, 53, 45, 37, 29, 21, 13, 5] ++ [63, 55, 47, 39, 31, 23, 15, 7] ++
   [56, 48, 40, 32, 24, 16, 8, 0] ++ [58, 50, 42, 34, 26, 18, 10, 2] ++
   [60, 52, 44, 36, 28, 20, 12, 4] ++ [62, 54, 46, 38, 30, 22, 14, 6]) rfl

/-- Final permutation (rule R103). -/
def fpTable : Vector Nat 64 := table
  ([39, 7, 47, 15, 55, 23, 63, 31] ++ [38, 6, 46, 14, 54, 22, 62, 30] ++
   [37, 5, 45, 13, 53, 21, 61, 29] ++ [36, 4, 44, 12, 52, 20, 60, 28] ++
   [35, 3, 43, 11, 51, 19, 59, 27] ++ [34, 2, 42, 10, 50, 18, 58, 26] ++
   [33, 1, 41, 9, 49, 17, 57, 25] ++ [32, 0, 40, 8, 48, 16, 56, 24]) rfl

/-- Expansion (rule R104), one row for each S-box lane. -/
def eTable : Vector Nat 48 := table
  ([31, 0, 1, 2, 3, 4] ++ [3, 4, 5, 6, 7, 8] ++ [7, 8, 9, 10, 11, 12] ++ [11, 12, 13, 14, 15, 16] ++
   [15, 16, 17, 18, 19, 20] ++ [19, 20, 21, 22, 23, 24] ++ [23, 24, 25, 26, 27, 28] ++ [27, 28, 29, 30, 31, 0]) rfl

/-- The permutation P of the round function (rule R105). -/
def pTable : Vector Nat 32 := table
  ([15, 6, 19, 20, 28, 11, 27, 16] ++ [0, 14, 22, 25, 4, 17, 30, 9] ++
   [1, 7, 23, 13, 31, 26, 2, 8] ++ [18, 12, 29, 5, 21, 10, 3, 24]) rfl

/-- Permuted choice 1 (rule R106): the first four rows give C, the last four D. -/
def pc1Table : Vector Nat 56 := table
  ([56, 48, 40, 32, 24, 16, 8] ++ [0, 57, 49, 41, 33, 25, 17] ++
   [9, 1, 58, 50, 42, 34, 26] ++ [18, 10, 2, 59, 51, 43, 35] ++
   [62, 54, 46, 38, 30, 22, 14] ++ [6, 61, 53, 45, 37, 29, 21] ++
   [13, 5, 60, 52, 44, 36, 28] ++ [20, 12, 4, 27, 19, 11, 3]) rfl

/-- Permuted choice 2 (rule R107). -/
def pc2Table : Vector Nat 48 := table
  ([13, 16, 10, 23, 0, 4] ++ [2, 27, 14, 5, 20, 9] ++ [22, 18, 11, 3, 25, 7] ++ [15, 6, 26, 19, 12, 1] ++
   [40, 51, 30, 36, 46, 54] ++ [29, 39, 50, 44, 32, 47] ++ [43, 48, 38, 55, 33, 52] ++ [45, 41, 49, 35, 28, 31]) rfl

/-- The network IP (rules R100, R102). -/
def permIP (v : Block) : Block := permute ipTable v

/-- The network FP (rules R100, R103). -/
def permFP (v : Block) : Block := permute fpTable v

/-- The network E (rules R100, R104). -/
def permE (v : Half) : Subkey := permute eTable v

/-- The network P (rules R100, R105). -/
def permP (v : Half) : Half := permute pTable v

/-- The network PC1 (rules R100, R106). -/
def permPC1 (v : Block) : BitVec 56 := permute pc1Table v

/-- The network PC2 (rules R100, R107). -/
def permPC2 (v : BitVec 56) : Subkey := permute pc2Table v

end Sys2Proof.Machine
end

