-- ==== Sys2Proof/Machine/RoundFunction.lean ====
section
/-!
DEFINITION. The round_function_datapath: `f` (rule R150), one round (rule R151) and its inverse (rule R152).
-/
namespace Sys2Proof.Machine

/-- `f(Rh, K)` (rule R150): expand, key, substitute, permute. -/
def roundF (rh : Half) (k : Subkey) : Half := permP (sBoxes (permE rh ^^^ k))

/-- `Round(L, R, K) = (R, L ^ f(R, K))` (rule R151). -/
def feistelRound (l r : Half) (k : Subkey) : Half × Half := (r, l ^^^ roundF r k)

/-- `Unround(L', R', K) = (R' ^ f(L', K), L')` (rule R152). -/
def feistelUnround (l r : Half) (k : Subkey) : Half × Half := (r ^^^ roundF l k, l)

end Sys2Proof.Machine
end

