-- ==== Sys2Proof/Machine/Feistel.lean ====
section
/-!
DEFINITION. The feistel_engine: the ENC, DEC and RSVD commands (rules R170 to R173), the ROUND step (rules R174 to R177) and
the pure block functions (rule R179).
-/
namespace Sys2Proof.Machine

/-- `L` as a block command loads it: `b[63:32]` of IP (rule R170). -/
def initialL (block : Block) : Half := (permIP block).extractLsb' 32 32

/-- `R` as a block command loads it: `b[31:0]` of IP (rule R170). -/
def initialR (block : Block) : Half := (permIP block).extractLsb' 0 32

/-- The output block of the halves after the last round: FP of `Rn || Ln` (rule R177). -/
def finalBlock (ln rn : Half) : Block := permFP (rn ++ ln)

/-- The acceptance edge of an ENC or DEC that starts (rules R170, R171). -/
def startBlock (m : Mode) (data : Block) (s : State) : State :=
  { s with
    L := initialL data
    R := initialR data
    mode := m
    ctr := 0
    doutValid := false
    err := CoreError.ok.code
    st := .round }

/-- The acceptance edge of ENC or DEC (rules R170, R171, R173): NOKEY without a schedule, else the block starts. -/
def acceptBlock (m : Mode) (data : Block) (s : State) : State :=
  if s.keyValid then startBlock m data s else raiseError .nokey s

/-- ENC (rule R170). -/
def execEnc (data : Block) (s : State) : Host.Outcome State Fault Refusal := .next (acceptBlock .encrypt data s)

/-- DEC (rule R171). -/
def execDec (data : Block) (s : State) : Host.Outcome State Fault Refusal := .next (acceptBlock .decrypt data s)

/-- RSVD (rules R172, R233): ILLEGAL, whatever `data` and `key_valid` are. -/
def execRsvd (_data : Block) (s : State) : Host.Outcome State Fault Refusal := .next (raiseError .illegal s)

/-- The subkey index of the ROUND step with `ctr` = i: forward for encrypt, reverse for decrypt (rule R174). -/
def subkeyIndex (m : Mode) (i : BitVec 4) : BitVec 4 :=
  match m with
  | .encrypt => i
  | .decrypt => 15 - i

/-- The halves a ROUND step writes (rule R176). -/
def nextHalves (s : State) : Half × Half := feistelRound s.L s.R (readKS s (subkeyIndex s.mode s.ctr))

/-- A ROUND step (rules R176, R177): one round, and after round 15 the output block and the return to IDLE. -/
def roundEdge (s : State) : State :=
  { s with
    L := (nextHalves s).1
    R := (nextHalves s).2
    dout := if s.ctr = 15 then finalBlock (nextHalves s).1 (nextHalves s).2 else s.dout
    doutValid := if s.ctr = 15 then true else s.doutValid
    ctr := if s.ctr = 15 then 0 else s.ctr + 1
    st := if s.ctr = 15 then .idle else .round }

/-- The rounds of a block in a given order of subkeys, from given halves (rule R179). -/
def runRounds (sk : Vector Subkey 16) (order : List (Fin 16)) (lr : Half × Half) : Half × Half :=
  order.foldl (fun lr j => feistelRound lr.1 lr.2 sk[j]) lr

/-- `Feistel(SK, B, order)` (rule R179). -/
def feistel (sk : Vector Subkey 16) (block : Block) (order : List (Fin 16)) : Block :=
  let lr := runRounds sk order (initialL block, initialR block)
  finalBlock lr.1 lr.2

/-- The subkey order of encryption: 0, 1, ..., 15 (rule R179). -/
def forwardOrder : List (Fin 16) := [0, 1, 2, 3, 4, 5, 6, 7, 8, 9, 10, 11, 12, 13, 14, 15]

/-- The subkey order of decryption: 15, 14, ..., 0 (rule R179). -/
def reverseOrder : List (Fin 16) := [15, 14, 13, 12, 11, 10, 9, 8, 7, 6, 5, 4, 3, 2, 1, 0]

/-- `EncryptBlock(SK, B)` (rule R179). -/
def encryptBlock (sk : Vector Subkey 16) (block : Block) : Block := feistel sk block forwardOrder

/-- `DecryptBlock(SK, B)` (rule R179). -/
def decryptBlock (sk : Vector Subkey 16) (block : Block) : Block := feistel sk block reverseOrder

/-- The block function of a mode: what the 16 ROUND steps compute (rule R179). -/
def cryptBlock (m : Mode) (sk : Vector Subkey 16) (block : Block) : Block :=
  match m with
  | .encrypt => encryptBlock sk block
  | .decrypt => decryptBlock sk block

end Sys2Proof.Machine
end

