-- ==== Sys2Proof/Machine/KeySchedule.lean ====
section
/-!
DEFINITION. The key_schedule_generator: the KEY command (rule R130), the KEYGEN step (rules R131 to R134) and the pure
schedule of a key (rule R135).
-/
namespace Sys2Proof.Machine

/-- `SHIFT[j]` for `j` = 0..15 (rule R131). -/
def shiftTable : List Nat := [1, 1, 2, 2, 2, 2, 2, 2, 1, 2, 2, 2, 2, 2, 2, 1]

/-- The rotation amount of KEYGEN step `j` (rule R131). -/
def shiftOf (j : Nat) : Nat := shiftTable.getD j 0

/-- `C` as KEY loads it: `cd[55:28]` of PC1 (rule R130). -/
def initialC (key : Block) : KeyHalf := (permPC1 key).extractLsb' 28 28

/-- `D` as KEY loads it: `cd[27:0]` of PC1 (rule R130). -/
def initialD (key : Block) : KeyHalf := (permPC1 key).extractLsb' 0 28

/-- The subkey of a pair of rotated halves: PC2 of `C || D` (rule R133). -/
def subkeyOf (c d : KeyHalf) : Subkey := permPC2 (c ++ d)

/-- The acceptance edge of KEY (rule R130). -/
def acceptKey (data : Block) (s : State) : State :=
  { s with
    C := initialC data
    D := initialD data
    ctr := 0
    keyValid := false
    err := CoreError.ok.code
    st := .keygen }

/-- KEY (rule R130): never fails, whatever the key. -/
def execKey (data : Block) (s : State) : Host.Outcome State Fault Refusal := .next (acceptKey data s)

/-- A KEYGEN step (rules R133, R134): rotate both halves, write one subkey, and after subkey 15 return to IDLE with
`key_valid` set. -/
def keygenEdge (s : State) : State :=
  { s with
    C := rotl28 s.C (shiftOf s.ctr.toNat)
    D := rotl28 s.D (shiftOf s.ctr.toNat)
    KS := writeKS s s.ctr (subkeyOf (rotl28 s.C (shiftOf s.ctr.toNat)) (rotl28 s.D (shiftOf s.ctr.toNat)))
    keyValid := if s.ctr = 15 then true else s.keyValid
    ctr := if s.ctr = 15 then 0 else s.ctr + 1
    st := if s.ctr = 15 then .idle else .keygen }

/-- `C` after the first `n` rotations of a key's schedule (rule R135). -/
def scheduleC (key : Block) : Nat → KeyHalf
  | 0 => initialC key
  | n + 1 => rotl28 (scheduleC key n) (shiftOf n)

/-- `D` after the first `n` rotations of a key's schedule (rule R135). -/
def scheduleD (key : Block) : Nat → KeyHalf
  | 0 => initialD key
  | n + 1 => rotl28 (scheduleD key n) (shiftOf n)

/-- `Schedule(K)[j]` (rule R135): the subkey after rotation `j`. -/
def scheduleEntry (key : Block) (j : Nat) : Subkey := subkeyOf (scheduleC key (j + 1)) (scheduleD key (j + 1))

/-- `Schedule(K)` (rule R135). -/
def schedule (key : Block) : Vector Subkey 16 := Vector.ofFn fun j => scheduleEntry key j

end Sys2Proof.Machine
end

