-- ==== Sys2Proof/Machine/Dispatch.lean ====
section
/-!
DEFINITION. What each command does at its acceptance edge (rules R71, R173): one arm per command.
-/
namespace Sys2Proof.Machine

def exec (i : Instr) (s : State) : Host.Outcome State Fault Refusal :=
  match i with
  | .key data => Sys2Proof.Machine.execKey data s
  | .enc data => Sys2Proof.Machine.execEnc data s
  | .dec data => Sys2Proof.Machine.execDec data s
  | .rsvd data => Sys2Proof.Machine.execRsvd data s

end Sys2Proof.Machine
end

