-- ==== Sys2Proof/Machine/Edge.lean ====
section
/-!
DEFINITION. What one step of the core is, before any command's meaning: the kinds of step, the choice among them
(rules R27, R133, R176, R235, R263), and the effect of every kind that is not an accepted command.
-/
namespace Sys2Proof.Machine

/-- A step that accepts no command. -/
inductive OtherStep where
  /-- Power goes and comes back (rules R244, R263). -/
  | powerCycle
  /-- No clock edge (rule R244). -/
  | clkStopped
  /-- A rising edge with `rst` = 1 (rule R260). -/
  | reset
  /-- An edge before the first reset edge, nothing offered (rule R263). -/
  | unreset
  /-- A command offered before the first reset edge (rule R263). -/
  | offeredUnreset
  /-- IDLE with `cmd_valid` = 0 (rule R244). -/
  | idle
  /-- A KEYGEN step (rule R133). -/
  | keygen
  /-- A ROUND step (rule R176). -/
  | round
deriving DecidableEq, Repr

/-- A step: the acceptance edge of a command, or another kind. -/
inductive StepKind where
  | command (i : Instr)
  | other (k : OtherStep)
deriving DecidableEq, Repr

/-- A command is accepted at this edge (rule R27): `rst` = 0, `cmd_valid` = 1 and `cmd_ready` = 1. -/
def accepts (p : Pins) (s : State) : Bool := !p.rst && p.cmdValid && cmdReady p.rst s

/-- The kind of a rising edge of a core that has been reset, with `rst` = 0 (rules R27, R133, R176, R244). -/
def runningEdgeKind (p : Pins) (s : State) : StepKind :=
  match s.st with
  | .idle => if accepts p s then .command (decode p.word) else .other .idle
  | .keygen => .other .keygen
  | .round => .other .round

/-- The kind of a rising edge: reset wins over everything (rule R235), and before the first reset edge nothing has a meaning
(rule R263). -/
def edgeKind (p : Pins) (s : State) : StepKind :=
  if p.rst then .other .reset
  else if s.resetSeen then runningEdgeKind p s
  else if p.cmdValid then .other .offeredUnreset
  else .other .unreset

/-- The kind of the next step. -/
def stepKind (s : State) : StepKind :=
  match currentEvent s with
  | .edge p => edgeKind p s
  | .clkStopped => .other .clkStopped
  | .powerCycle => .other .powerCycle

/-- The effect of a step that accepts no command. -/
def otherStep (k : OtherStep) (s : State) : Host.Outcome State Fault Refusal :=
  match k with
  | .powerCycle => .next (unresetCore s)
  | .clkStopped => .next s
  | .reset => .next (resetEdge s)
  | .unreset => .next (unresetCore s)
  | .offeredUnreset => .refused .commandBeforeReset
  | .idle => .next s
  | .keygen => .next (keygenEdge s)
  | .round => .next (roundEdge s)

/-- `s` with a command word offered as the very next input of an idle core that has been reset: what
`withFetchWord` sets (log entry 7). The busy core's command is dropped, since only IDLE accepts one, and IDLE has
`ctr` = 0 (rules R25, R27). -/
def offeringWord (s : State) (w : CmdWord) : State :=
  { s with
    st := .idle
    ctr := 0
    resetSeen := true
    inputs := .edge ⟨false, true, opField w, dataField w⟩ :: s.inputs }

end Sys2Proof.Machine
end

