-- ==== Sys2Proof/Machine/Step.lean ====
section
/-!
DEFINITION. One step of the machine: one event of the host, normally one rising edge of `clk` (rules R20, R259; log
entry 6).
-/
namespace Sys2Proof.Machine

/-- One step: the current input is consumed, and either a command is accepted and executed or the step is of another
kind. -/
def step (s : State) : Host.Outcome State Fault Refusal :=
  match stepKind s with
  | .command i => exec i (takeInput s)
  | .other k => otherStep k (takeInput s)

/-- `s` with the table word `w` of `nbits` bits placed where the next step takes its command: on the command ports, offered
in the next cycle (log entry 7). -/
def State.withFetchWord (s : State) (nbits w : Nat) : State :=
  offeringWord s (BitVec.ofNat 66 (w % 2 ^ nbits))

end Sys2Proof.Machine
end

