-- ==== Sys2Proof/Machine/Operands.lean ====
section
/-!
DEFINITION. How the bytes of a host buffer stand in a 64-bit operand and in `dout` (rules R52, R53): big-endian, the first
byte most significant. These are the only operand forms (rules R54, R55, R72).
-/
namespace Sys2Proof.Machine

/-- `data = B0 || B1 || ... || B7` (rules R52, R201). Meant for lists of exactly 8 bytes. -/
def blockOfBytes (bytes : List Byte) : Block :=
  bytes.foldl (fun acc b => (acc <<< 8) ||| b.setWidth 64) 0

/-- Byte `Bk` of a block: `v[63-8k : 56-8k]` (rules R52, R53, R72). -/
def blockByte (v : Block) (k : Nat) : Byte := v.extractLsb' (56 - 8 * k) 8

/-- The 8 bytes of a block in buffer order (rule R53). -/
def bytesOfBlock (v : Block) : List Byte :=
  [blockByte v 0, blockByte v 1, blockByte v 2, blockByte v 3, blockByte v 4, blockByte v 5, blockByte v 6, blockByte v 7]

/-- The parity bits of a key operand, which PC1 drops: `data[56], data[48], ..., data[0]` (rule R72). -/
def parityMask : Block := 0x0101010101010101#64

end Sys2Proof.Machine
end

