-- ==== Sys2Proof/Machine/Driver.lean ====
section
/-!
DEFINITION. The host driver (rules R200 to R211): key normalization, padding, the host errors, the buffer operations as the
host runs them on the core, and the buffer functions they compute.
-/
namespace Sys2Proof.Machine

/-- The host errors, a closed set (rule R207). -/
inductive HostError where
  /-- Raised by `Decrypt` on a ciphertext whose length is not a multiple of 8 (rule R206). -/
  | notBlockAligned
  /-- Raised by `Unpad` on an empty buffer or a trailing byte that is 0 or above 8 (rule R203). -/
  | corruptedPadding
  /-- Raised when a check of a command's status fails, with `err` (rules R204, R205). -/
  | coreError (code : BitVec 2)
deriving DecidableEq, Repr

/-- `NormalizeKey(k)` (rule R200): the first 8 bytes, or zero bytes appended up to 8. -/
def normalizeKey (k : List Byte) : List Byte :=
  if 8 ≤ k.length then k.take 8 else k ++ List.replicate (8 - k.length) 0

/-- The KEY operand of a key string (rules R200, R201). -/
def keyOperand (k : List Byte) : Block := blockOfBytes (normalizeKey k)

/-- The number of bytes `Pad` appends: 1 to 8 (rule R202). -/
def padCount (m : List Byte) : Nat := 8 - m.length % 8

/-- `Pad(m)` (rule R202). -/
def pad (m : List Byte) : List Byte := m ++ List.replicate (padCount m) (BitVec.ofNat 8 (padCount m))

/-- `Unpad(p)` (rule R203), which gives a meaning only to lengths that are multiples of 8 (log entry 11). -/
def unpad (p : List Byte) : Except HostError (List Byte) :=
  match p.getLast? with
  | none => .error .corruptedPadding
  | some r => if r = 0 ∨ 8 < r.toNat then .error .corruptedPadding else .ok (p.take (p.length - r.toNat))

/-- Continue after an outcome that is a next value; a fault or a refusal ends the run. -/
def andThen {α β : Type} (o : Host.Outcome α Fault Refusal) (f : α → Host.Outcome β Fault Refusal) :
    Host.Outcome β Fault Refusal :=
  match o with
  | .next a => f a
  | .fault r => .fault r
  | .refused r => .refused r

/-- One rising edge with the host driving these input ports; the host is the driver, so its pins replace any other inputs. -/
def clockWith (p : Pins) (s : State) : Host.Outcome State Fault Refusal := step { s with inputs := [.edge p] }

/-- Hold these ports while `cmd_ready` = 0, for at most the given number of edges (log entry 10). -/
def driveUntilReady (p : Pins) : Nat → State → Host.Outcome State Fault Refusal
  | 0, s => .next s
  | n + 1, s => if cmdReady p.rst s then .next s else andThen (clockWith p s) (driveUntilReady p n)

/-- The most edges for which a core that has been reset stays busy (rule R270). -/
def busyEdges : Nat := 16

/-- Offer a command and hold it until its acceptance edge (rules R75, R209). -/
def offerCommand (i : Instr) (s : State) : Host.Outcome State Fault Refusal :=
  andThen (driveUntilReady (Pins.offer i) busyEdges s) (clockWith (Pins.offer i))

/-- Drive `cmd_valid` = 0 until `cmd_ready` = 1 (rule R76, WAIT), for at most `busyEdges` edges (log entry 10). Waiting reads
`cmd_ready`, so before the first reset edge it is refused (rule R263, U6; log entry 4). -/
def waitReady (s : State) : Host.Outcome State Fault Refusal :=
  if s.resetSeen then driveUntilReady Pins.quiet busyEdges s else .refused .readBeforeReset

/-- Issue a command and wait until `cmd_ready` = 1 (rules R204, R205). -/
def runCommand (i : Instr) (s : State) : Host.Outcome State Fault Refusal := andThen (offerCommand i s) waitReady

/-- What a buffer operation leaves: the core, and either bytes or a host error with no bytes (rule R207). -/
abbrev DriverResult := Host.Outcome (State × Except HostError (List Byte)) Fault Refusal

/-- The check after a block command: `err` = 0 and `dout_valid` = 1 (rules R204, R205). -/
def blockOk (s : State) : Bool := decide (s.err = 0) && s.doutValid

/-- The block loop of rules R204 and R205 over `n` blocks, in increasing order, with ENC or DEC as the command. -/
def blockLoop (command : Block → Instr) : Nat → List Byte → State → DriverResult
  | 0, _, s => .next (s, .ok [])
  | n + 1, p, s =>
    andThen (runCommand (command (blockOfBytes (p.take 8))) s) fun s1 =>
      if blockOk s1 then
        andThen (blockLoop command n (p.drop 8) s1) fun r => .next (r.1, r.2.map (bytesOfBlock s1.dout ++ ·))
      else .next (s1, .error (.coreError s1.err))

/-- Issue KEY, wait, check `err` = 0 (rules R204, R205), and go on. -/
def withKey (k : List Byte) (s : State) (rest : State → DriverResult) : DriverResult :=
  andThen (runCommand (.key (keyOperand k)) s) fun s1 =>
    if s1.err = 0 then rest s1 else .next (s1, .error (.coreError s1.err))

/-- `Encrypt` without its KEY, what is left when the host skips it (rules R204, R209; `maySkipKey` says when it may). -/
def driverEncryptLoaded (m : List Byte) (s : State) : DriverResult :=
  blockLoop .enc ((pad m).length / 8) (pad m) s

/-- The block loop and `Unpad` of `Decrypt`, after the length check and the KEY (rule R205). -/
def decryptAligned (c : List Byte) (s : State) : DriverResult :=
  andThen (blockLoop .dec (c.length / 8) c s) fun r => .next (r.1, r.2.bind unpad)

/-- `Decrypt` without its KEY, what is left when the host skips it (rules R205, R206, R209; `maySkipKey` says when it may):
an unaligned buffer issues no command. -/
def driverDecryptLoaded (c : List Byte) (s : State) : DriverResult :=
  if c.length % 8 ≠ 0 then .next (s, .error .notBlockAligned) else decryptAligned c s

/-- `Encrypt(m, k)` run on the core (rule R204). -/
def driverEncrypt (m k : List Byte) (s : State) : DriverResult := withKey k s (driverEncryptLoaded m)

/-- `Decrypt(c, k)` run on the core (rules R205, R206): an unaligned buffer issues no command. -/
def driverDecrypt (c k : List Byte) (s : State) : DriverResult :=
  if c.length % 8 ≠ 0 then .next (s, .error .notBlockAligned) else withKey k s (decryptAligned c)

/-- The host may skip KEY when the key is unchanged and `key_valid` = 1 (rule R209). `last` is what the host remembers: the
operand of the KEY it issued last, if any (log entry 17). -/
def maySkipKey (last : Option Block) (k : List Byte) (s : State) : Bool :=
  decide (last = some (keyOperand k)) && s.keyValid

/-- Issue KEY only when it may not be skipped, and go on. The test reads `key_valid`, so before the first reset edge it is
refused (rule R263, U6; log entry 4). -/
def withKeyReused (last : Option Block) (k : List Byte) (s : State) (rest : State → DriverResult) : DriverResult :=
  if s.resetSeen then if maySkipKey last k s then rest s else withKey k s rest
  else .refused .readBeforeReset

/-- `Encrypt(m, k)` by a host that skips KEY whenever it may (rules R204, R209; log entry 17). -/
def driverEncryptReusing (last : Option Block) (m k : List Byte) (s : State) : DriverResult :=
  withKeyReused last k s (driverEncryptLoaded m)

/-- `Decrypt(c, k)` by a host that skips KEY whenever it may (rules R205, R206, R209; log entry 17). -/
def driverDecryptReusing (last : Option Block) (c k : List Byte) (s : State) : DriverResult :=
  if c.length % 8 ≠ 0 then .next (s, .error .notBlockAligned) else withKeyReused last k s (decryptAligned c)

/-- A block function applied to `n` blocks of a buffer, the results concatenated in block order (rule R204). -/
def mapBlocks (f : Block → Block) : Nat → List Byte → List Byte
  | 0, _ => []
  | n + 1, p => bytesOfBlock (f (blockOfBytes (p.take 8))) ++ mapBlocks f n (p.drop 8)

/-- The bytes `Encrypt(m, k)` returns (rule R204). -/
def encryptBuffer (m k : List Byte) : List Byte :=
  mapBlocks (encryptBlock (schedule (keyOperand k))) ((pad m).length / 8) (pad m)

/-- What `Decrypt(c, k)` returns (rules R205, R206). -/
def decryptBuffer (c k : List Byte) : Except HostError (List Byte) :=
  if c.length % 8 ≠ 0 then .error .notBlockAligned
  else unpad (mapBlocks (decryptBlock (schedule (keyOperand k))) (c.length / 8) c)

end Sys2Proof.Machine
end

