-- ==== Sys2Proof/Machine/Script.lean ====
section
/-!
DEFINITION. The host scripts of rules R75 and R76: command lines, the directives RESET, WAIT and READ, and the
pseudo-command KEYSTR, with what each does at the ports.
-/
namespace Sys2Proof.Machine

/-- One line of a host script. -/
inductive ScriptLine where
  /-- A command line (rule R75). -/
  | command (i : Instr)
  /-- `RESET` (rule R76). -/
  | reset
  /-- `WAIT` (rule R76). -/
  | wait
  /-- `READ` (rule R76). -/
  | read
  /-- `KEYSTR "<text>"`, with the text as ASCII bytes (rule R76). -/
  | keystr (text : List Byte)
deriving DecidableEq, Repr

/-- What READ samples (rule R76). -/
structure Sample where
  dout : Block
  doutValid : Bool
  keyValid : Bool
  err : BitVec 2
deriving DecidableEq, Repr

/-- The output registers as a host samples them. -/
def sampleOf (s : State) : Sample := ⟨s.dout, s.doutValid, s.keyValid, s.err⟩

/-- The command a KEYSTR line expands to (rule R76). -/
def keystrCommand (text : List Byte) : Instr := .key (keyOperand text)

/-- What a script has done so far: the core and the samples taken, in order. -/
abbrev ScriptResult := Host.Outcome (State × List Sample) Fault Refusal

/-- A line that takes no sample. -/
def withoutSample (o : Host.Outcome State Fault Refusal) : ScriptResult := andThen o fun s => .next (s, [])

/-- Sample the outputs of a core that has been reset; before the first reset edge they have no meaning (rule R263). -/
def readOutputs (s : State) : ScriptResult :=
  if s.resetSeen then .next (s, [sampleOf s]) else .refused .readBeforeReset

/-- Run one line (rules R75, R76). A command line ends at its acceptance edge. READ on a busy core waits as WAIT does, with
`cmd_valid` = 0, and on a ready core takes no edge: what the host drives until `cmd_ready` = 1 the rule leaves open, and this is
the model's choice (log entry 16). -/
def runLine (line : ScriptLine) (s : State) : ScriptResult :=
  match line with
  | .command i => withoutSample (offerCommand i s)
  | .reset => withoutSample (clockWith Pins.reset s)
  | .wait => withoutSample (waitReady s)
  | .read => andThen (waitReady s) readOutputs
  | .keystr text => withoutSample (offerCommand (keystrCommand text) s)

/-- Run the lines of a script in order. -/
def runScript : List ScriptLine → State → ScriptResult
  | [], s => .next (s, [])
  | line :: rest, s =>
    andThen (runLine line s) fun r => andThen (runScript rest r.1) fun q => .next (q.1, r.2 ++ q.2)

end Sys2Proof.Machine
end

