-- ==== Sys2Proof/Machine/Assembler.lean ====
section
/-!
DEFINITION. The written form of a script line (rules R75, R76), read from and written to a list of characters. Spacing and
the comment after `;` follow log entry 12.
-/
namespace Sys2Proof.Machine

/-- The value of a hexadecimal digit, of either case (rule R75). -/
def hexValue (ch : Char) : Option Nat :=
  if 48 ≤ ch.toNat ∧ ch.toNat ≤ 57 then some (ch.toNat - 48)
  else if 65 ≤ ch.toNat ∧ ch.toNat ≤ 70 then some (ch.toNat - 55)
  else if 97 ≤ ch.toNat ∧ ch.toNat ≤ 102 then some (ch.toNat - 87)
  else none

/-- The number written by hexadecimal digits, most significant first (rules R13, R75). -/
def hexNumber (digits : List Char) : Option Nat :=
  digits.foldl (fun acc ch => acc.bind fun n => (hexValue ch).map fun d => 16 * n + d) (some 0)

/-- The operand `0x<16 hex digits>` at the front of a text, and the text after it (rule R75). -/
def parseOperand : List Char → Option (Block × List Char)
  | '0' :: 'x' :: rest =>
    if 16 ≤ rest.length then (hexNumber (rest.take 16)).map fun n => (BitVec.ofNat 64 n, rest.drop 16) else none
  | _ => none

/-- A text without its leading spaces. -/
def skipSpaces (text : List Char) : List Char := text.dropWhile (· == ' ')

/-- Nothing follows but spaces and a comment (rule R75). -/
def lineEnds (text : List Char) : Bool :=
  match skipSpaces text with
  | [] => true
  | ch :: _ => ch == ';'

/-- A command line's operand, after its mnemonic (rule R75). -/
def parseCommand (command : Block → Instr) (text : List Char) : Option ScriptLine :=
  match text with
  | ' ' :: rest =>
    match parseOperand (skipSpaces rest) with
    | some (data, after) => if lineEnds after then some (.command (command data)) else none
    | none => none
  | _ => none

/-- A directive that takes no operand (rule R76). -/
def parseDirective (line : ScriptLine) (text : List Char) : Option ScriptLine :=
  if lineEnds text then some line else none

/-- The text of a KEYSTR line, between double quotes, as ASCII bytes (rule R76). -/
def parseKeystr (text : List Char) : Option ScriptLine :=
  match text with
  | ' ' :: rest =>
    match skipSpaces rest with
    | '"' :: body =>
      let inside := body.takeWhile (· != '"')
      match body.drop inside.length with
      | _ :: after =>
        if inside.all (fun ch => decide (ch.toNat < 128)) && lineEnds after then
          some (.keystr (inside.map fun ch => BitVec.ofNat 8 ch.toNat))
        else none
      | [] => none
    | _ => none
  | _ => none

/-- Read one line (rules R75, R76): one command or directive, and what follows a `;` is a comment. The listings of
95_test_vectors.md also show edge labels before a command and `WAIT ; READ` on one line; this form reads neither, which is
the model's choice (log entry 12). -/
def parseLine (text : List Char) : Option ScriptLine :=
  match skipSpaces text with
  | 'K' :: 'E' :: 'Y' :: 'S' :: 'T' :: 'R' :: rest => parseKeystr rest
  | 'K' :: 'E' :: 'Y' :: rest => parseCommand .key rest
  | 'E' :: 'N' :: 'C' :: rest => parseCommand .enc rest
  | 'D' :: 'E' :: 'C' :: rest => parseCommand .dec rest
  | 'R' :: 'S' :: 'V' :: 'D' :: rest => parseCommand .rsvd rest
  | 'R' :: 'E' :: 'S' :: 'E' :: 'T' :: rest => parseDirective .reset rest
  | 'W' :: 'A' :: 'I' :: 'T' :: rest => parseDirective .wait rest
  | 'R' :: 'E' :: 'A' :: 'D' :: rest => parseDirective .read rest
  | _ => none

/-- The hexadecimal digit of a 4-bit value, a capital letter above 9. -/
def hexChar (d : BitVec 4) : Char := Char.ofNat (if d.toNat < 10 then 48 + d.toNat else 55 + d.toNat)

/-- The 16 digits of an operand, most significant first (rule R13). -/
def hexDigits (data : Block) : List Char := (List.range 16).map fun k => hexChar (data.extractLsb' (60 - 4 * k) 4)

/-- The mnemonic of a command (rule R75). -/
def mnemonicText : Instr → List Char
  | .key _ => ['K', 'E', 'Y']
  | .enc _ => ['E', 'N', 'C']
  | .dec _ => ['D', 'E', 'C']
  | .rsvd _ => ['R', 'S', 'V', 'D']

/-- A command as a script line (rule R75). -/
def printCommand (i : Instr) : List Char := mnemonicText i ++ [' ', '0', 'x'] ++ hexDigits i.data

/-- The assembled word of a command, `op:data` in hex (rule R75). -/
def printWord (i : Instr) : List Char := hexChar (i.opcode.setWidth 4) :: ':' :: hexDigits i.data

/-- Read an assembled word, `op:data` in hex with 16 digits of `data` (rule R75). -/
def readWord (text : List Char) : Option RawCommand :=
  match text with
  | op :: ':' :: digits =>
    if digits.length = 16 then (hexValue op).bind fun o => (hexNumber digits).map fun n => ⟨o, n⟩ else none
  | _ => none

end Sys2Proof.Machine
end

