-- ==== Sys2Proof/Safety.lean ====
section
/-!
DEFINITION. What a safe run is, in the terms the claims use: the invariant of a core that has been reset, host inputs
without a reset or a loss of power, what an observer at the ports sees, and the host's duties of rule R209.
-/
namespace Sys2Proof.Machine

/-- `err` is never 3 (rules R23, R35, R230, U7). -/
def ErrLegal (s : State) : Prop := s.err ≠ 3

/-- `ctr` is 0 in IDLE (rule R25). -/
def CounterLegal (s : State) : Prop := s.st = .idle → s.ctr = 0

/-- KEYGEN runs with `key_valid` = 0 and `err` = 0, and holds the rotated halves of one key and the subkeys it has written
(rules R130, R133). -/
def KeygenConsistent (s : State) : Prop :=
  s.st = .keygen → s.keyValid = false ∧ s.err = 0 ∧
    ∃ key : Block, s.C = scheduleC key s.ctr.toNat ∧ s.D = scheduleD key s.ctr.toNat ∧
      ∀ j : Fin 16, j.val < s.ctr.toNat → s.KS[j] = scheduleEntry key j

/-- The subkey order of a mode (rules R174, R179). -/
def orderOf : Mode → List (Fin 16)
  | .encrypt => forwardOrder
  | .decrypt => reverseOrder

/-- ROUND runs with `key_valid` = 1, `dout_valid` = 0 and `err` = 0, and holds the halves of one block after `ctr` rounds
(rules R170, R175, R176). -/
def RoundConsistent (s : State) : Prop :=
  s.st = .round → s.keyValid = true ∧ s.doutValid = false ∧ s.err = 0 ∧
    ∃ block : Block, (s.L, s.R) = runRounds s.KS ((orderOf s.mode).take s.ctr.toNat) (initialL block, initialR block)

/-- `key_valid` = 1 only over the complete schedule of one key (rule R31). -/
def ScheduleComplete (s : State) : Prop := s.keyValid = true → ∃ key : Block, s.KS = schedule key

/-- The invariant of a core that has been reset; before the first reset edge every element is unspecified (rule R263) and
nothing is claimed. -/
def CoreInv (s : State) : Prop :=
  s.resetSeen = true →
    ErrLegal s ∧ CounterLegal s ∧ KeygenConsistent s ∧ RoundConsistent s ∧ ScheduleComplete s

/-- Rising edges with these input ports, in order. -/
def edges (ps : List Pins) : List HostEvent := ps.map .edge

/-- `rst` = 0 at every one of these edges. -/
def NoReset (ps : List Pins) : Prop := ∀ p ∈ ps, p.rst = false

/-- The core keeps its power during these inputs. -/
def KeepsPower (events : List HostEvent) : Prop := HostEvent.powerCycle ∉ events

/-- In this cycle the host offers exactly this command to an idle core that has been reset (rule R27). -/
def Offers (i : Instr) (p : Pins) : Prop := p.rst = false ∧ p.cmdValid = true ∧ decode p.word = i

/-- The core can accept a command: it has been reset and is in IDLE (rules R28, R263). -/
def CanAccept (s : State) : Prop := s.resetSeen = true ∧ s.st = .idle

/-- The command starts and occupies the core: KEY always, ENC and DEC with `key_valid` = 1 (rules R173, R270). -/
def Starts (i : Instr) (s : State) : Prop :=
  match i with
  | .key _ => True
  | .enc _ => s.keyValid = true
  | .dec _ => s.keyValid = true
  | .rsvd _ => False

/-- A step that accepts no command. -/
def AcceptsNoCommand (s : State) : Prop := ∀ i, stepKind s ≠ .command i

/-- Two cycles of the core that no observer at the ports can tell apart (rule R22). -/
def SameOutputs (s t : State) : Prop := ∀ rst, outputs rst s = outputs rst t

/-- The elements a reset edge specifies have their reset values (rule R38). -/
def SpecifiedResetValues (s : State) : Prop :=
  s.st = .idle ∧ s.ctr = 0 ∧ s.keyValid = false ∧ s.dout = 0 ∧ s.doutValid = false ∧ s.err = 0 ∧ s.resetSeen = true

/-- The host offers a command in this cycle, whatever `rst` is (rule R22). -/
def Pins.offers (p : Pins) : Bool := p.cmdValid

/-- The ports at the next rising edge among the inputs, however long the clock stands still before it; none when no edge is
left or power is lost first. -/
def nextEdge : List HostEvent → Option Pins
  | [] => none
  | .edge q :: _ => some q
  | .clkStopped :: rest => nextEdge rest
  | .powerCycle :: _ => none

/-- The same command word is on the ports. -/
def Pins.sameWord (p q : Pins) : Bool := decide (q.cmdOp = p.cmdOp) && decide (q.cmdData = p.cmdData)

/-- The host's hold duty between this cycle and the next edge (rules R209, R272): a command offered and not accepted, be it
that the core is busy or that `rst` is high, is offered again unchanged, or withdrawn by lowering `cmd_valid`. -/
def holdsOffer (s : State) : Bool :=
  match currentEvent s with
  | .edge p =>
    !p.offers || accepts p s ||
      match nextEdge s.inputs.tail with
      | some q => !q.offers || p.sameWord q
      | none => true
  | .clkStopped => true
  | .powerCycle => true

/-- The host's power-up duty in this cycle (rules R209, R263): no command is offered before the first reset edge. -/
def resetsFirst (s : State) : Bool :=
  match currentEvent s with
  | .edge p => s.resetSeen || !p.offers
  | .clkStopped => true
  | .powerCycle => true

/-- The host's duty to complete a KEY before the first ENC or DEC after reset (rules R209, R264, R274): a block command is
accepted only with `key_valid` = 1. One offered during KEYGEN waits, and is no breach. -/
def keyBeforeBlock (s : State) : Bool :=
  match stepKind s with
  | .command (.key _) => true
  | .command (.enc _) => s.keyValid
  | .command (.dec _) => s.keyValid
  | .command (.rsvd _) => true
  | .other _ => true

/-- The host keeps its duties at the ports for the next `n` steps (rule R209). -/
def keepsContract : Nat → State → Bool
  | 0, _ => true
  | n + 1, s =>
    holdsOffer s && resetsFirst s && keyBeforeBlock s &&
      match step s with
      | .next t => keepsContract n t
      | .fault _ => false
      | .refused _ => false

/-- A sample the host may rely on (rules R209, R273): taken with `cmd_ready` = 1 and `dout_valid` = 1. -/
def resultReadable (rst : Bool) (s : State) : Bool := cmdReady rst s && s.doutValid

end Sys2Proof.Machine
end

