-- ==== Sys2Proof/Certificates/Slice0/Obligations.lean ====
section
/-!
DEFINITION. The statements about the core, from the numbered rules of the spec. Each docstring names its rules; a run is
`Sys2Proof.core.run`, one step per host event.
-/
open Sys2Proof Sys2Proof.Machine

/-! ### Encoding -/

/-- R71: the opcode map by field, as match and mask over the 66-bit word, and total. -/
def Obligations.DecodeFollowsOpcodeMap : Prop :=
  (∀ data : Block, decode (0b00#2 ++ data) = .key data ∧ decode (0b01#2 ++ data) = .enc data ∧
    decode (0b10#2 ++ data) = .dec data ∧ decode (0b11#2 ++ data) = .rsvd data) ∧
  ∀ w : CmdWord,
    (w &&& 0x30000000000000000#66 = 0x00000000000000000#66 ∧ decode w = .key (w.extractLsb' 0 64)) ∨
    (w &&& 0x30000000000000000#66 = 0x10000000000000000#66 ∧ decode w = .enc (w.extractLsb' 0 64)) ∨
    (w &&& 0x30000000000000000#66 = 0x20000000000000000#66 ∧ decode w = .dec (w.extractLsb' 0 64)) ∨
    (w &&& 0x30000000000000000#66 = 0x30000000000000000#66 ∧ decode w = .rsvd (w.extractLsb' 0 64))

/-- Words of the spec's own programs (95_test_vectors.md section 4), written out, decode to the commands they stand for. -/
def Obligations.WrittenOutWordsDecode : Prop :=
  decodeTableWord 66 0x0133457799BBCDFF1 = some (.key 0x133457799BBCDFF1#64) ∧
  decodeTableWord 66 0x10123456789ABCDEF = some (.enc 0x0123456789ABCDEF#64) ∧
  decodeTableWord 66 0x285E813540F0AB405 = some (.dec 0x85E813540F0AB405#64) ∧
  decodeTableWord 66 0x31234567812345678 = some (.rsvd 0x1234567812345678#64)

/-- R70, R71, R73: decoding and encoding are inverse of each other, over all commands and all 2^66 words. -/
def Obligations.DecodeEncodeRoundTrip : Prop :=
  (∀ i : Instr, decode (encode i) = i) ∧ ∀ w : CmdWord, encode (decode w) = w

/-- A number is decoded exactly when it is a 66-bit word (log entry 9: the model's choice for wider numbers), and the raw form
`op:data` of R75 exactly when both fields fit. -/
def Obligations.OnlySixtySixBitWordsDecode : Prop :=
  (∀ w : Nat, w < 2 ^ 66 → decodeNat w = .ok (decode (BitVec.ofNat 66 w))) ∧
  (∀ w : Nat, 2 ^ 66 ≤ w → decodeNat w = .error .widerThanCommandWord) ∧
  (∀ i : Instr, decodeRaw i.toRaw = .ok i) ∧
  ∀ c : RawCommand, c.wellFormed = false → ∃ e, decodeRaw c = .error e

/-! ### Permutations, S-boxes, round function -/

/-- R101: the properties of the six tables (their lengths are in their types). -/
def Obligations.PermutationTableProperties : Prop :=
  (∀ k < 64, ipTable.toList.count k = 1) ∧ (∀ i ∈ ipTable.toList, i < 64) ∧
  (∀ k < 64, fpTable.toList.count k = 1) ∧ (∀ i ∈ fpTable.toList, i < 64) ∧
  (∀ i : Fin 64, ipTable.toList.getD (fpTable[i]) 64 = i) ∧ (∀ i : Fin 64, fpTable.toList.getD (ipTable[i]) 64 = i) ∧
  (∀ i ∈ eTable.toList, i < 32) ∧
  (∀ k < 32, eTable.toList.count k =
    if k ∈ [0, 3, 4, 7, 8, 11, 12, 15, 16, 19, 20, 23, 24, 27, 28, 31] then 2 else 1) ∧
  (∀ k < 32, pTable.toList.count k = 1) ∧ (∀ i ∈ pTable.toList, i < 32) ∧
  (∀ i ∈ pc1Table.toList, i < 64) ∧
  (∀ k < 64, pc1Table.toList.count k = if k ∈ [7, 15, 23, 31, 39, 47, 55, 63] then 0 else 1) ∧
  (∀ i ∈ pc2Table.toList, i < 56) ∧
  (∀ k < 56, pc2Table.toList.count k = if k ∈ [8, 17, 21, 24, 34, 37, 42, 53] then 0 else 1)

/-- R103, last paragraph: FP and IP are inverse of each other on every 64-bit value. -/
def Obligations.FinalPermutationInvertsInitial : Prop :=
  ∀ v : Block, permFP (permIP v) = v ∧ permIP (permFP v) = v

/-- R121: the lookup of every lane in sequence numbering, row from the outer bits, column from the inner bits, and where its
output stands. -/
def Obligations.SBoxLaneLookup : Prop :=
  ∀ (x : Subkey) (g : Fin 8),
    let b : Nat → Nat := fun k => (seq x (6 * g + k)).toNat
    let row := 2 * b 0 + b 5
    let col := 8 * b 1 + 4 * b 2 + 2 * b 3 + b 4
    let boxes := [sbox1, sbox2, sbox3, sbox4, sbox5, sbox6, sbox7, sbox8]
    ((sBoxes x).extractLsb' (28 - 4 * g) 4).toNat = ((boxes.getD g []).getD row []).getD col 16

/-- R153: the corner values of `f`, its complement law, and the worked example. -/
def Obligations.RoundFunctionCornerCases : Prop :=
  roundF 0x00000000#32 0x000000000000#48 = 0xD8D8DBBC#32 ∧
  sBoxes 0x000000000000#48 = 0xEFA72C4D#32 ∧
  roundF 0xFFFFFFFF#32 0x000000000000#48 = 0x38DBF9CB#32 ∧
  roundF 0x00000000#32 0xFFFFFFFFFFFF#48 = 0x38DBF9CB#32 ∧
  (∀ (rh : Half) (k : Subkey), roundF (~~~rh) (~~~k) = roundF rh k) ∧
  permE 0xF0AAF0AA#32 = 0x7A15557A1555#48 ∧
  permE 0xF0AAF0AA#32 ^^^ 0x1B02EFFC7072#48 = 0x6117BA866527#48 ∧
  sBoxes 0x6117BA866527#48 = 0x5C82B597#32 ∧
  roundF 0xF0AAF0AA#32 0x1B02EFFC7072#48 = 0x234AA9BB#32

/-- R152: a round is undone by `Unround`, and by the same round between two swaps; `f` itself is not injective. -/
def Obligations.RoundIsInvertible : Prop :=
  (∀ (l r : Half) (k : Subkey),
    feistelUnround (feistelRound l r k).1 (feistelRound l r k).2 k = (l, r) ∧
    (feistelRound (feistelRound l r k).2 (feistelRound l r k).1 k).swap = (l, r)) ∧
  ∃ (rh rh' : Half) (k k' : Subkey), (rh, k) ≠ (rh', k') ∧ roundF rh k = roundF rh' k'

/-! ### The key schedule -/

/-- R130: KEY answers the next state of its pseudocode, whatever the key and the state; parity bits and the old `C` and `D` have
no effect; a busy core accepts no command; after `k` KEYGEN edges the first `k` entries of `KS` are new and the others old, with
`key_valid` = 1 only after the last; the example. -/
def Obligations.KeyStartsSchedule : Prop :=
  (∀ data : Block, decode (0b00#2 ++ data) = .key data) ∧
  (∀ (data : Block) (s : State), exec (.key data) s = .next
    { s with
      C := (permPC1 data).extractLsb' 28 28
      D := (permPC1 data).extractLsb' 0 28
      ctr := 0
      keyValid := false
      err := 0
      st := .keygen }) ∧
  (∀ (data data' : Block) (s : State), data &&& ~~~parityMask = data' &&& ~~~parityMask →
    exec (.key data) s = exec (.key data') s) ∧
  (∀ (data : Block) (s : State) (c d : KeyHalf), exec (.key data) { s with C := c, D := d } = exec (.key data) s) ∧
  (∀ s : State, s.resetSeen = true → s.st ≠ .idle → AcceptsNoCommand s) ∧
  (∀ (s : State) (p : Pins) (ps : List Pins) (rest : List HostEvent) (data : Block),
    CanAccept s → Offers (.key data) p → ps.length = 16 → NoReset ps → s.inputs = .edge p :: (edges ps ++ rest) →
    ∀ k ≤ 16, ∃ t : State, Sys2Proof.core.run (k + 1) s = .next t ∧ t.keyValid = decide (k = 16) ∧
      ∀ j : Fin 16, t.KS[j] = if j.val < k then (schedule data)[j] else s.KS[j]) ∧
  initialC 0x133457799BBCDFF1#64 = 0xF0CCAAF#28 ∧ initialD 0x133457799BBCDFF1#64 = 0x556678F#28

/-- R131, R132: the rotation amounts, what a rotation does to a half, that rotations accumulate, and that sixteen of them
return to the loaded halves. -/
def Obligations.RotationsAccumulateAndReturn : Prop :=
  (∀ j : Fin 16, shiftOf j = if j.val = 0 ∨ j.val = 1 ∨ j.val = 8 ∨ j.val = 15 then 1 else 2) ∧
  ((List.range 16).map shiftOf).sum = 28 ∧
  (∀ (v : KeyHalf) (n i : Nat), n = 1 ∨ n = 2 → i < 28 → seq (rotl28 v n) i = seq v ((i + n) % 28)) ∧
  (∀ s : State, (keygenEdge s).C = rotl28 s.C (shiftOf s.ctr.toNat) ∧
    (keygenEdge s).D = rotl28 s.D (shiftOf s.ctr.toNat)) ∧
  (∀ key : Block, scheduleC key 16 = initialC key ∧ scheduleD key 16 = initialD key)

/-- R133, R134: a KEYGEN step rotates both halves, writes the one subkey `KS[ctr]`, advances or completes, and leaves everything
else as it was. -/
def Obligations.KeygenStepWritesOneSubkey : Prop :=
  ∀ (s : State) (p : Pins) (rest : List HostEvent),
    s.inputs = .edge p :: rest → s.resetSeen = true → p.rst = false → s.st = .keygen →
    cmdReady p.rst s = false ∧
    ∃ t, step s = .next t ∧
      t.C = rotl28 s.C (shiftOf s.ctr.toNat) ∧ t.D = rotl28 s.D (shiftOf s.ctr.toNat) ∧
      (∀ j : Fin 16, t.KS[j] = if j.val = s.ctr.toNat then permPC2 (t.C ++ t.D) else s.KS[j]) ∧
      (s.ctr ≠ 15 → t.ctr.toNat = s.ctr.toNat + 1 ∧ t.st = .keygen ∧ t.keyValid = s.keyValid) ∧
      (s.ctr = 15 → t.ctr = 0 ∧ t.st = .idle ∧ t.keyValid = true ∧ cmdReady false t = true) ∧
      t.mode = s.mode ∧ t.L = s.L ∧ t.R = s.R ∧ t.dout = s.dout ∧ t.doutValid = s.doutValid ∧ t.err = s.err ∧
      t.resetSeen = true ∧ t.freeIx = s.freeIx ∧ t.inputs = rest

/-- R135: after the acceptance edge of KEY and 16 edges with `rst` = 0, `KS` is `Schedule(K)` and `key_valid` = 1; with `rst` = 1
at any of the 16 edges, `key_valid` = 0. -/
def Obligations.KeyTransactionLoadsSchedule : Prop :=
  (∀ (s : State) (p : Pins) (ps : List Pins) (rest : List HostEvent) (key : Block),
    CanAccept s → Offers (.key key) p → ps.length = 16 → NoReset ps → s.inputs = .edge p :: (edges ps ++ rest) →
    ∃ t : State, Sys2Proof.core.run 17 s = .next t ∧ t.keyValid = true ∧ t.KS = schedule key ∧
      (∀ j : Fin 16, t.KS[j] = permPC2 (scheduleC key (j + 1) ++ scheduleD key (j + 1))) ∧
      t.st = .idle ∧ t.ctr = 0 ∧ t.err = 0 ∧ t.dout = s.dout ∧ t.doutValid = s.doutValid ∧ t.inputs = rest) ∧
  ∀ (s : State) (p : Pins) (ps : List Pins) (rest : List HostEvent) (key : Block),
    CanAccept s → Offers (.key key) p → ps.length = 16 → (∃ q ∈ ps, q.rst = true) →
    s.inputs = .edge p :: (edges ps ++ rest) →
    ∃ t : State, Sys2Proof.core.run 17 s = .next t ∧ t.keyValid = false

/-- R72, R106: keys that differ only in parity bits have the same schedule. -/
def Obligations.ParityBitsHaveNoEffect : Prop :=
  ∀ key key' : Block, key &&& ~~~parityMask = key' &&& ~~~parityMask → schedule key = schedule key'

/-- R136: the schedules of the four weak keys, the complement law, and that each of the four and of their parity variants has
equal subkeys and encrypts twice to the input. -/
def Obligations.ScheduleCornerCases : Prop :=
  schedule 0x0000000000000000#64 = Vector.replicate 16 0x000000000000#48 ∧
  schedule 0x0101010101010101#64 = Vector.replicate 16 0x000000000000#48 ∧
  schedule 0xFFFFFFFFFFFFFFFF#64 = Vector.replicate 16 0xFFFFFFFFFFFF#48 ∧
  schedule 0xFEFEFEFEFEFEFEFE#64 = Vector.replicate 16 0xFFFFFFFFFFFF#48 ∧
  schedule 0x1F1F1F1F0E0E0E0E#64 = Vector.replicate 16 0x000000FFFFFF#48 ∧
  schedule 0xE0E0E0E0F1F1F1F1#64 = Vector.replicate 16 0xFFFFFF000000#48 ∧
  (∀ (key : Block) (j : Fin 16), (schedule (~~~key))[j] = ~~~(schedule key)[j]) ∧
  ∀ key : Block, key &&& ~~~parityMask ∈ [0x0000000000000000#64, 0xFFFFFFFFFFFFFFFF#64 &&& ~~~parityMask,
      0x1F1F1F1F0E0E0E0E#64 &&& ~~~parityMask, 0xE0E0E0E0F1F1F1F1#64 &&& ~~~parityMask] →
    (∃ k : Subkey, schedule key = Vector.replicate 16 k) ∧
    ∀ block : Block, encryptBlock (schedule key) (encryptBlock (schedule key) block) = block

/-! ### The Feistel engine -/

/-- R170: ENC with `key_valid` = 1 answers the next state of its pseudocode, with `key_valid` = 0 only `err` changes; a busy core
accepts no command; `dout` is unchanged until the 16th ROUND edge gives it the result; the example. -/
def Obligations.EncStartsOrRaisesNokey : Prop :=
  (∀ data : Block, decode (0b01#2 ++ data) = .enc data) ∧
  (∀ (data : Block) (s : State), s.keyValid = true → exec (.enc data) s = .next
    { s with
      L := (permIP data).extractLsb' 32 32
      R := (permIP data).extractLsb' 0 32
      mode := .encrypt
      ctr := 0
      doutValid := false
      err := 0
      st := .round }) ∧
  (∀ (data : Block) (s : State), s.keyValid = false → exec (.enc data) s = .next { s with err := 1 }) ∧
  (∀ s : State, s.resetSeen = true → s.st ≠ .idle → AcceptsNoCommand s) ∧
  (∀ (s : State) (p : Pins) (ps : List Pins) (rest : List HostEvent) (data : Block),
    CanAccept s → s.keyValid = true → Offers (.enc data) p → ps.length = 16 → NoReset ps →
    s.inputs = .edge p :: (edges ps ++ rest) →
    ∀ k ≤ 16, ∃ t : State, Sys2Proof.core.run (k + 1) s = .next t ∧ t.keyValid = true ∧
      t.dout = if k = 16 then encryptBlock s.KS data else s.dout) ∧
  encryptBlock (schedule 0x133457799BBCDFF1#64) 0x0123456789ABCDEF#64 = 0x85E813540F0AB405#64

/-- R171: DEC is ENC with `mode` = 1; DEC of any block gives `DecryptBlock(KS, data)`; the example. -/
def Obligations.DecStartsOrRaisesNokey : Prop :=
  (∀ data : Block, decode (0b10#2 ++ data) = .dec data) ∧
  (∀ (data : Block) (s : State), s.keyValid = true → exec (.dec data) s = .next
    { s with
      L := (permIP data).extractLsb' 32 32
      R := (permIP data).extractLsb' 0 32
      mode := .decrypt
      ctr := 0
      doutValid := false
      err := 0
      st := .round }) ∧
  (∀ (data : Block) (s : State), s.keyValid = false → exec (.dec data) s = .next { s with err := 1 }) ∧
  (∀ s : State, s.resetSeen = true → s.st ≠ .idle → AcceptsNoCommand s) ∧
  (∀ (s : State) (p : Pins) (ps : List Pins) (rest : List HostEvent) (data : Block),
    CanAccept s → s.keyValid = true → Offers (.dec data) p → ps.length = 16 → NoReset ps →
    s.inputs = .edge p :: (edges ps ++ rest) →
    ∀ k ≤ 16, ∃ t : State, Sys2Proof.core.run (k + 1) s = .next t ∧ t.keyValid = true ∧
      t.dout = if k = 16 then decryptBlock s.KS data else s.dout) ∧
  decryptBlock (schedule 0x133457799BBCDFF1#64) 0x85E813540F0AB405#64 = 0x0123456789ABCDEF#64

/-- R172, R233: RSVD raises ILLEGAL whatever `data` and `key_valid` are, changes nothing else, and is accepted like any command,
the core staying in IDLE; the example. -/
def Obligations.RsvdRaisesIllegal : Prop :=
  (∀ data : Block, decode (0b11#2 ++ data) = .rsvd data) ∧
  (∀ (data : Block) (s : State), exec (.rsvd data) s = .next { s with err := 2 }) ∧
  (∀ (s : State) (p : Pins) (rest : List HostEvent) (data : Block),
    CanAccept s → Offers (.rsvd data) p → s.inputs = .edge p :: rest →
    ∃ t, step s = .next t ∧ t = { s with err := 2, inputs := rest } ∧ cmdReady false t = true) ∧
  exec (.rsvd 0) State.reset = .next { State.reset with err := 2 }

/-- R174, R176, R177: a ROUND step runs one round with the subkey of its mode and counter, advances, or after round 15 writes
the output block, and leaves everything else as it was. -/
def Obligations.RoundStepRunsOneRound : Prop :=
  ∀ (s : State) (p : Pins) (rest : List HostEvent),
    s.inputs = .edge p :: rest → s.resetSeen = true → p.rst = false → s.st = .round →
    cmdReady p.rst s = false ∧
    ∃ (t : State) (k : Subkey), step s = .next t ∧
      (∀ j : Fin 16, (s.mode = .encrypt → j.val = s.ctr.toNat → k = s.KS[j]) ∧
        (s.mode = .decrypt → j.val = 15 - s.ctr.toNat → k = s.KS[j])) ∧
      t.L = s.R ∧ t.R = s.L ^^^ roundF s.R k ∧
      (s.ctr ≠ 15 → t.ctr.toNat = s.ctr.toNat + 1 ∧ t.st = .round ∧ t.dout = s.dout ∧ t.doutValid = s.doutValid) ∧
      (s.ctr = 15 → t.ctr = 0 ∧ t.st = .idle ∧ t.dout = permFP (t.R ++ t.L) ∧ t.doutValid = true) ∧
      t.mode = s.mode ∧ t.C = s.C ∧ t.D = s.D ∧ t.KS = s.KS ∧ t.keyValid = s.keyValid ∧ t.err = s.err ∧
      t.resetSeen = true ∧ t.freeIx = s.freeIx ∧ t.inputs = rest

/-- R179: an ENC or DEC accepted with `key_valid` = 1 and followed by 16 edges with `rst` = 0 leaves `EncryptBlock(KS, B)` or
`DecryptBlock(KS, B)` in `dout`, with `dout_valid` = 1 and the subkey file unchanged. -/
def Obligations.BlockTransactionComputesCipher : Prop :=
  ∀ (s : State) (p : Pins) (ps : List Pins) (rest : List HostEvent) (block : Block),
    CanAccept s → s.keyValid = true → ps.length = 16 → NoReset ps → s.inputs = .edge p :: (edges ps ++ rest) →
    (Offers (.enc block) p → ∃ t : State, Sys2Proof.core.run 17 s = .next t ∧ t.dout = encryptBlock s.KS block ∧
      t.doutValid = true ∧ t.KS = s.KS ∧ t.keyValid = true ∧ t.err = 0 ∧ t.st = .idle ∧ t.ctr = 0 ∧ t.inputs = rest) ∧
    (Offers (.dec block) p → ∃ t : State, Sys2Proof.core.run 17 s = .next t ∧ t.dout = decryptBlock s.KS block ∧
      t.doutValid = true ∧ t.KS = s.KS ∧ t.keyValid = true ∧ t.err = 0 ∧ t.st = .idle ∧ t.ctr = 0 ∧ t.inputs = rest)

/-- R180: decryption undoes encryption and encryption undoes decryption, for every key and block, and for every fixed subkey
file encryption is a bijection. -/
def Obligations.DecryptionInvertsEncryption : Prop :=
  (∀ key block : Block,
    decryptBlock (schedule key) (encryptBlock (schedule key) block) = block ∧
    encryptBlock (schedule key) (decryptBlock (schedule key) block) = block) ∧
  ∀ sk : Vector Subkey 16, Function.Bijective (encryptBlock sk)

/-- R181: over the same subkey file, two ENC transactions give the same `dout` exactly when their blocks are the same,
whatever else differs in the two cores. -/
def Obligations.EcbResultDependsOnlyOnBlock : Prop :=
  ∀ (s s' : State) (p p' : Pins) (ps ps' : List Pins) (rest rest' : List HostEvent) (block block' : Block),
    CanAccept s → CanAccept s' → s.keyValid = true → s'.keyValid = true → s.KS = s'.KS →
    Offers (.enc block) p → Offers (.enc block') p' →
    ps.length = 16 → ps'.length = 16 → NoReset ps → NoReset ps' →
    s.inputs = .edge p :: (edges ps ++ rest) → s'.inputs = .edge p' :: (edges ps' ++ rest') →
    ∃ t t' : State, Sys2Proof.core.run 17 s = .next t ∧ Sys2Proof.core.run 17 s' = .next t' ∧
      (t.dout = t'.dout ↔ block = block')

/-- R182: complementing key and block complements the result. -/
def Obligations.Complementation : Prop :=
  ∀ key block : Block, encryptBlock (schedule (~~~key)) (~~~block) = ~~~encryptBlock (schedule key) block

/-- R178: no input but `rst` changes a ROUND step; a reset during ROUND leaves `dout` = 0 and `dout_valid` = 0. -/
def Obligations.OnlyResetStopsABlock : Prop :=
  ∀ (s : State) (p q : Pins) (rest : List HostEvent), s.resetSeen = true → s.st = .round →
    (p.rst = false → q.rst = false →
      step { s with inputs := .edge p :: rest } = step { s with inputs := .edge q :: rest }) ∧
    (p.rst = true → ∃ t, step { s with inputs := .edge p :: rest } = .next t ∧
      t.dout = 0 ∧ t.doutValid = false ∧ t.st = .idle)

/-! ### The handshake, status and whole-machine rules -/

/-- R27: at a rising edge of a core that has been reset, the command on the ports is accepted exactly when `rst` = 0, `cmd_valid` = 1
and `cmd_ready` = 1, and then the step is `exec` of the decoded word, with the input consumed; while the core is busy, or nothing
is offered, the values on the command ports have no effect. -/
def Obligations.StepExecutesAcceptedCommand : Prop :=
  ∀ (s : State) (p : Pins) (rest : List HostEvent), s.inputs = .edge p :: rest → s.resetSeen = true →
    (p.rst = false ∧ p.cmdValid = true ∧ cmdReady p.rst s = true →
      step s = exec (decode (p.cmdOp ++ p.cmdData)) { s with inputs := rest }) ∧
    (¬(p.rst = false ∧ p.cmdValid = true ∧ cmdReady p.rst s = true) → AcceptsNoCommand s) ∧
    ∀ q : Pins, p.rst = false → q.rst = false → s.st ≠ .idle ∨ (p.cmdValid = false ∧ q.cmdValid = false) →
      step { s with inputs := .edge q :: rest } = step s

/-- R28: `cmd_ready`, and that no command is accepted while `rst` = 1. -/
def Obligations.CmdReadyIsIdleAndNotReset : Prop :=
  (∀ (rst : Bool) (s : State), cmdReady rst s = true ↔ s.st = .idle ∧ rst = false) ∧
  ∀ (s : State) (p : Pins) (rest : List HostEvent), s.inputs = .edge p :: rest → p.rst = true → AcceptsNoCommand s

/-- R244: an idle core with nothing offered keeps its state at an edge, and so does a core whose clock stands still; after a
loss of power the core is as unreset. That a stopped clock and a loss of power are inputs of the model is its choice, log
entry 15. -/
def Obligations.IdleAndStoppedClockKeepState : Prop :=
  (∀ (s : State) (p : Pins) (rest : List HostEvent), s.inputs = .edge p :: rest → s.resetSeen = true → p.rst = false →
    s.st = .idle → p.cmdValid = false → step s = .next { s with inputs := rest }) ∧
  (∀ (s : State) (rest : List HostEvent), s.inputs = .clkStopped :: rest → step s = .next { s with inputs := rest }) ∧
  ∀ (s : State) (rest : List HostEvent), s.inputs = .powerCycle :: rest →
    ∃ t, step s = .next t ∧ t.resetSeen = false ∧ t.inputs = rest

/-- R260: one or more edges with `rst` = 1 leave every specified element at its reset value, whatever the state and the other
inputs were. -/
def Obligations.ResetEdgesTakeResetValues : Prop :=
  ∀ (s : State) (ps : List Pins) (rest : List HostEvent), ps ≠ [] → (∀ p ∈ ps, p.rst = true) →
    s.inputs = edges ps ++ rest →
    AcceptsNoCommand s ∧
    ∃ t : State, Sys2Proof.core.run ps.length s = .next t ∧ SpecifiedResetValues t ∧ t.inputs = rest

/-- R261: after a reset edge, with `rst` = 0, the outputs are those of the rule, and a command is accepted at the first edge at
which it is offered; `State.reset` is such a state. -/
def Obligations.ResetLeavesCoreReady : Prop :=
  (∀ (s : State) (p : Pins) (rest : List HostEvent), s.inputs = .edge p :: rest → p.rst = true →
    ∃ t, step s = .next t ∧ t.st = .idle ∧
      outputs false t = { cmdReady := true, dout := 0, doutValid := false, keyValid := false, err := 0 } ∧
      ∀ (q : Pins) (rest' : List HostEvent), rest = .edge q :: rest' → q.rst = false → q.cmdValid = true →
        stepKind t = .command (decode q.word)) ∧
  SpecifiedResetValues State.reset ∧
  outputs false State.reset = { cmdReady := true, dout := 0, doutValid := false, keyValid := false, err := 0 }

/-- R263: before the first reset edge a command offered is refused by name, an edge without one leaves the core unreset, and a
reset edge brings it into the contract. The refusal's form and the step with nothing offered are the model's, log entry 4. -/
def Obligations.NothingBeforeFirstReset : Prop :=
  ∀ (s : State) (p : Pins) (rest : List HostEvent), s.inputs = .edge p :: rest → s.resetSeen = false →
    (p.rst = false → p.cmdValid = true → step s = .refused .commandBeforeReset) ∧
    (p.rst = false → p.cmdValid = false → ∃ t, step s = .next t ∧ t.resetSeen = false ∧ t.inputs = rest) ∧
    (p.rst = true → ∃ t, step s = .next t ∧ SpecifiedResetValues t ∧ t.inputs = rest)

/-- R231, R263: the only step that answers no next state is a command offered before the first reset edge; nothing faults. The
refusal's form is the model's, log entry 4, and so is the empty type of faults, log entry 8. -/
def Obligations.OnlyAnUnresetCoreStops : Prop :=
  ∀ s : State,
    (s.resetSeen = true → ∃ t, step s = .next t) ∧
    (∀ r, step s = .refused r → r = .commandBeforeReset ∧ s.resetSeen = false ∧
      ∃ p, currentEvent s = .edge p ∧ p.rst = false ∧ p.cmdValid = true) ∧
    ∀ f, step s ≠ .fault f

/-- The invariant of a core that has been reset (R23, R25, R31, R133, R176) is kept by every step. -/
def Obligations.CoreInvariantKeptByStep : Prop :=
  ∀ s t : State, CoreInv s → step s = .next t → CoreInv t

/-- The invariant holds at reset. -/
def Obligations.CoreInvariantAtReset : Prop := CoreInv State.reset

/-- R35: what each edge of a core that has been reset writes to `err`. -/
def Obligations.ErrWrittenAtAcceptanceAndReset : Prop :=
  ∀ (s : State) (p : Pins) (rest : List HostEvent), s.inputs = .edge p :: rest → s.resetSeen = true →
    ∃ t, step s = .next t ∧
      (p.rst = true → t.err = 0) ∧
      (p.rst = false → accepts p s = false → t.err = s.err) ∧
      (accepts p s = true → t.err =
        match decode p.word with
        | .key _ => 0
        | .enc _ => if s.keyValid then 0 else 1
        | .dec _ => if s.keyValid then 0 else 1
        | .rsvd _ => 2)

/-- R33: which edges write `dout_valid`, and what. -/
def Obligations.DoutValidWrites : Prop :=
  ∀ (s : State) (p : Pins) (rest : List HostEvent), s.inputs = .edge p :: rest → s.resetSeen = true →
    ∃ t, step s = .next t ∧
      (p.rst = true → t.doutValid = false) ∧
      (p.rst = false → s.st = .round → s.ctr = 15 → t.doutValid = true) ∧
      (accepts p s = true → s.keyValid = true →
        (∃ b, decode p.word = .enc b ∨ decode p.word = .dec b) → t.doutValid = false) ∧
      (p.rst = false → ¬(s.st = .round ∧ s.ctr = 15) →
        ¬(accepts p s = true ∧ s.keyValid = true ∧ ∃ b, decode p.word = .enc b ∨ decode p.word = .dec b) →
        t.doutValid = s.doutValid)

/-- R32: which edges write `dout`, `L` and `R`, and what. -/
def Obligations.DoutAndHalvesWrites : Prop :=
  ∀ (s : State) (p : Pins) (rest : List HostEvent), s.inputs = .edge p :: rest → s.resetSeen = true →
    ∃ t, step s = .next t ∧
      (p.rst = true → t.dout = 0) ∧
      (p.rst = false → s.st = .round → s.ctr = 15 → t.dout = permFP (t.R ++ t.L)) ∧
      (p.rst = false → ¬(s.st = .round ∧ s.ctr = 15) → t.dout = s.dout) ∧
      (∀ b, accepts p s = true → s.keyValid = true → decode p.word = .enc b ∨ decode p.word = .dec b →
        t.L ++ t.R = permIP b) ∧
      (p.rst = false → s.st ≠ .round →
        ¬(accepts p s = true ∧ s.keyValid = true ∧ ∃ b, decode p.word = .enc b ∨ decode p.word = .dec b) →
        t.L = s.L ∧ t.R = s.R)

/-- R26, R29, R30, R31: without a reset, only KEYGEN steps write `KS`, only KEYGEN steps and KEY acceptances write `C`, `D` and
`key_valid`, and only ENC and DEC acceptances that start write `mode`, 0 and 1. -/
def Obligations.KeyStateAndModeWrites : Prop :=
  ∀ (s : State) (p : Pins) (rest : List HostEvent), s.inputs = .edge p :: rest → s.resetSeen = true → p.rst = false →
    ∃ t, step s = .next t ∧
      (s.st ≠ .keygen → t.KS = s.KS) ∧
      (s.st ≠ .keygen → ¬(accepts p s = true ∧ ∃ b, decode p.word = .key b) →
        t.C = s.C ∧ t.D = s.D ∧ t.keyValid = s.keyValid) ∧
      (s.st = .keygen → s.ctr ≠ 15 → t.keyValid = s.keyValid) ∧
      (¬(accepts p s = true ∧ s.keyValid = true ∧ ∃ b, decode p.word = .enc b ∨ decode p.word = .dec b) → t.mode = s.mode) ∧
      (∀ b, accepts p s = true → s.keyValid = true → decode p.word = .enc b → t.mode = .encrypt) ∧
      (∀ b, accepts p s = true → s.keyValid = true → decode p.word = .dec b → t.mode = .decrypt)

/-- R130, R170, R171, R172: the frame of the commands. Every command answers a next state that keeps `KS`, `dout` and the model's
own fields; only KEY touches `C`, `D` and `key_valid`; only an ENC or DEC that starts touches `L`, `R`, `mode` and `dout_valid`;
only a command that starts touches `st` and `ctr`. -/
def Obligations.CommandFrame : Prop :=
  ∀ (i : Instr) (s : State), ∃ t, exec i s = .next t ∧
    t.KS = s.KS ∧ t.dout = s.dout ∧ t.resetSeen = s.resetSeen ∧ t.freeIx = s.freeIx ∧ t.inputs = s.inputs ∧
    ((∀ b, i ≠ .key b) → t.C = s.C ∧ t.D = s.D ∧ t.keyValid = s.keyValid) ∧
    (¬(s.keyValid = true ∧ ∃ b, i = .enc b ∨ i = .dec b) →
      t.L = s.L ∧ t.R = s.R ∧ t.mode = s.mode ∧ t.doutValid = s.doutValid) ∧
    (¬Starts i s → t.st = s.st ∧ t.ctr = s.ctr)

/-- R270, R245: a command that starts holds `cmd_ready` at 0 in the 16 cycles from its acceptance edge and at 1 in the next, when
its result is visible, whatever the operand; one that raises an error leaves `cmd_ready` at 1 at once. -/
def Obligations.StartedCommandOccupiesSeventeenEdges : Prop :=
  ∀ (s : State) (i : Instr) (p : Pins) (ps : List Pins) (rest : List HostEvent),
    CanAccept s → Offers i p → ps.length = 16 → NoReset ps → s.inputs = .edge p :: (edges ps ++ rest) →
    (Starts i s → ∀ k ≤ 16, ∃ t : State, Sys2Proof.core.run (k + 1) s = .next t ∧
      cmdReady false t = decide (k = 16) ∧ t.err = 0 ∧
      match i with
      | .key _ => t.keyValid = decide (k = 16)
      | .enc block => t.doutValid = decide (k = 16) ∧ (k = 16 → t.dout = encryptBlock s.KS block)
      | .dec block => t.doutValid = decide (k = 16) ∧ (k = 16 → t.dout = decryptBlock s.KS block)
      | .rsvd _ => True) ∧
    (¬Starts i s → ∃ t : State, Sys2Proof.core.run 1 s = .next t ∧ cmdReady false t = true ∧
      t.err = match i with
        | .key _ => 0
        | .enc _ => 1
        | .dec _ => 1
        | .rsvd _ => 2)

/-- R25, R270: from every state of a core that has been reset, reachable or not, 16 edges with `rst` = 0 and nothing offered lead to
`cmd_ready` = 1. -/
def Obligations.ReadyWithinSixteenEdges : Prop :=
  ∀ (s : State) (ps : List Pins) (rest : List HostEvent), s.resetSeen = true → ps.length = 16 → NoReset ps →
    (∀ p ∈ ps, p.cmdValid = false) → s.inputs = edges ps ++ rest →
    ∃ t : State, Sys2Proof.core.run 16 s = .next t ∧ cmdReady false t = true ∧ t.inputs = rest

/-- R23: the fields of the STATUS word. -/
def Obligations.StatusWordLayout : Prop :=
  ∀ (rst : Bool) (s : State),
    (statusWord rst s).getLsbD 0 = cmdReady rst s ∧ (statusWord rst s).getLsbD 1 = s.keyValid ∧
    (statusWord rst s).getLsbD 2 = s.doutValid ∧ (statusWord rst s).extractLsb' 3 2 = s.err ∧
    (statusWord rst s).extractLsb' 5 3 = 0

/-- R38, column "observable?", and U5: two cores just reset that agree on the specified elements but differ at will in `mode`, `C`,
`D`, `KS`, `L`, `R`, `ctr` and in the free values still to be drawn show the same outputs for ever, under the same inputs,
as long as power is kept. -/
def Obligations.UnspecifiedResetValuesUnobservable : Prop :=
  ∀ s t : State, s.resetSeen = true → t.resetSeen = true → s.st = .idle → t.st = .idle →
    s.keyValid = false → t.keyValid = false → s.dout = t.dout → s.doutValid = t.doutValid → s.err = t.err →
    s.inputs = t.inputs → KeepsPower s.inputs →
    ∀ (n : Nat) (s' : State), Sys2Proof.core.run n s = .next s' →
      ∃ t' : State, Sys2Proof.core.run n t = .next t' ∧ SameOutputs s' t'

/-- R37, last sentence: outside KEYGEN the contents of `C` and `D` never reach an output. The two runs have equal draw counters:
before the first reset edge, or after a loss of power, the equal outputs rest on both runs drawing the same free values, the
model's choice of log entries 2 and 4. `KeyHalvesUnobservableWhateverIsDrawn` does not rest on it. -/
def Obligations.KeyHalvesUnobservable : Prop :=
  ∀ (s : State) (c d : KeyHalf), s.st ≠ .keygen →
    ∀ (n : Nat) (s' : State), Sys2Proof.core.run n s = .next s' →
      ∃ t' : State, Sys2Proof.core.run n { s with C := c, D := d } = .next t' ∧ SameOutputs s' t'

/-- R37, last sentence, whatever the free values still to be drawn are: of a core that has been reset and keeps its power,
outside KEYGEN, the contents of `C` and `D` never reach an output. -/
def Obligations.KeyHalvesUnobservableWhateverIsDrawn : Prop :=
  ∀ (s : State) (c d : KeyHalf) (ix : Nat), s.resetSeen = true → s.st ≠ .keygen → KeepsPower s.inputs →
    ∀ (n : Nat) (s' : State), Sys2Proof.core.run n s = .next s' →
      ∃ t' : State, Sys2Proof.core.run n { s with C := c, D := d, freeIx := ix } = .next t' ∧ SameOutputs s' t'

/-- R264: from any state, even before the first reset edge, a reset edge, a KEY and its 16 edges, an ENC and its 16 edges leave
the encrypted block in `dout`. -/
def Obligations.BootOrderEncrypts : Prop :=
  ∀ (s : State) (r p q : Pins) (ps qs : List Pins) (rest : List HostEvent) (key block : Block),
    r.rst = true → Offers (.key key) p → Offers (.enc block) q →
    ps.length = 16 → qs.length = 16 → NoReset ps → NoReset qs →
    s.inputs = .edge r :: .edge p :: (edges ps ++ .edge q :: (edges qs ++ rest)) →
    ∃ t : State, Sys2Proof.core.run 35 s = .next t ∧ t.dout = encryptBlock (schedule key) block ∧ t.doutValid = true ∧
      t.keyValid = true ∧ t.err = 0 ∧ t.st = .idle

/-- A table word placed by `withFetchWord` is what the very next step executes (log entry 7, the model's choice). -/
def Obligations.FetchWordRunsNext : Prop :=
  ∀ (s : State) (nbits w : Nat), 66 ≤ nbits → w < 2 ^ 66 →
    decodeTableWord nbits w = some (decode (BitVec.ofNat 66 w)) ∧
    step (s.withFetchWord nbits w) =
      exec (decode (BitVec.ofNat 66 w)) { s with st := .idle, ctr := 0, resetSeen := true }

/-! ### The host driver -/

/-- R52, R53: the byte and bit order of an operand and of the output. -/
def Obligations.OperandBytesAreBigEndian : Prop :=
  (∀ bytes : List Byte, bytes.length = 8 →
    bytesOfBlock (blockOfBytes bytes) = bytes ∧
    ∀ k < 8, (blockOfBytes bytes).extractLsb' (56 - 8 * k) 8 = bytes.getD k 0 ∧
      ∀ j < 8, seq (blockOfBytes bytes) (8 * k + j) = (bytes.getD k 0).getLsbD (7 - j)) ∧
  (∀ v : Block, blockOfBytes (bytesOfBlock v) = v ∧ (bytesOfBlock v).length = 8 ∧
    ∀ k < 8, (bytesOfBlock v).getD k 0 = v.extractLsb' (56 - 8 * k) 8) ∧
  blockOfBytes [0x31, 0x32, 0x33, 0x34, 0x35, 0x36, 0x37, 0x38] = 0x3132333435363738#64

/-- R200: key normalization, always to 8 bytes; the examples. -/
def Obligations.KeyNormalization : Prop :=
  (∀ k : List Byte, (normalizeKey k).length = 8 ∧
    (8 ≤ k.length → normalizeKey k = k.take 8) ∧
    (k.length < 8 → normalizeKey k = k ++ List.replicate (8 - k.length) 0)) ∧
  normalizeKey [] = [0, 0, 0, 0, 0, 0, 0, 0] ∧
  normalizeKey [0x31, 0x32, 0x33, 0x34] = [0x31, 0x32, 0x33, 0x34, 0, 0, 0, 0] ∧
  normalizeKey [0x31, 0x32, 0x33, 0x34, 0x35, 0x36, 0x37, 0x38, 0x39] =
    [0x31, 0x32, 0x33, 0x34, 0x35, 0x36, 0x37, 0x38]

/-- R202: the pad is 1 to 8 bytes of its own count, and the padded length is the least multiple of 8 strictly greater than the
length. -/
def Obligations.PadAppendsItsCount : Prop :=
  ∀ m : List Byte, ∃ r : Nat, 1 ≤ r ∧ r ≤ 8 ∧ r = 8 - m.length % 8 ∧ (m.length % 8 = 0 → r = 8) ∧
    pad m = m ++ List.replicate r (BitVec.ofNat 8 r) ∧
    (pad m).length % 8 = 0 ∧ m.length < (pad m).length ∧ ∀ n, m.length < n → n % 8 = 0 → (pad m).length ≤ n

/-- R203: what `Unpad` returns on a buffer whose length is a multiple of 8, by its trailing byte alone. -/
def Obligations.UnpadReadsTrailingByte : Prop :=
  unpad [] = .error .corruptedPadding ∧
  ∀ (body : List Byte) (r : Byte), (body ++ [r]).length % 8 = 0 →
    (r.toNat = 0 ∨ 8 < r.toNat → unpad (body ++ [r]) = .error .corruptedPadding) ∧
    (1 ≤ r.toNat → r.toNat ≤ 8 → r.toNat ≤ (body ++ [r]).length ∧
      unpad (body ++ [r]) = .ok ((body ++ [r]).take ((body ++ [r]).length - r.toNat)))

/-- R204, R208: run on any core that has been reset, `Encrypt` never fails and returns the concatenated blocks of the pure
function, with the key's schedule left in the core. -/
def Obligations.DriverEncryptComputesBuffer : Prop :=
  ∀ (m k : List Byte) (s : State), s.resetSeen = true →
    ∃ t, driverEncrypt m k s = .next (t, .ok (encryptBuffer m k)) ∧ (encryptBuffer m k).length = (pad m).length ∧
      t.resetSeen = true ∧ t.st = .idle ∧ t.keyValid = true ∧ t.KS = schedule (keyOperand k)

/-- R205, R208: run on any core that has been reset, `Decrypt` of an aligned buffer returns the pure function's answer, which is
never a core error. -/
def Obligations.DriverDecryptComputesBuffer : Prop :=
  ∀ (c k : List Byte) (s : State), s.resetSeen = true → c.length % 8 = 0 →
    (∃ t, driverDecrypt c k s = .next (t, decryptBuffer c k) ∧
      t.resetSeen = true ∧ t.st = .idle ∧ t.keyValid = true ∧ t.KS = schedule (keyOperand k)) ∧
    ∀ e, decryptBuffer c k ≠ .error (.coreError e)

/-- R206: a ciphertext whose length is not a multiple of 8 is rejected with no command issued: the core is unchanged. -/
def Obligations.UnalignedCiphertextRejected : Prop :=
  ∀ (c k : List Byte) (s : State), c.length % 8 ≠ 0 →
    driverDecrypt c k s = .next (s, .error .notBlockAligned) ∧ decryptBuffer c k = .error .notBlockAligned

/-- R210: for every key string and every byte string, decrypting on the core what the core encrypted returns the byte string,
with no error. -/
def Obligations.BufferRoundTrip : Prop :=
  ∀ (m k : List Byte) (s : State), s.resetSeen = true →
    ∃ (t u : State) (c : List Byte), driverEncrypt m k s = .next (t, .ok c) ∧ driverDecrypt c k t = .next (u, .ok m)

/-- R211: the boundary cases of the buffer functions. -/
def Obligations.BufferBoundaries : Prop :=
  (∀ k : List Byte,
    encryptBuffer [] k = bytesOfBlock (encryptBlock (schedule (keyOperand k)) 0x0808080808080808#64) ∧
    decryptBuffer (encryptBuffer [] k) k = .ok []) ∧
  (∀ m k : List Byte, m.length = 13 → (encryptBuffer m k).length = 16 ∧ pad m = m ++ [3, 3, 3]) ∧
  ∀ k : List Byte, decryptBuffer [] k = .error .corruptedPadding

/-- R75: every command line as printed is read back as the command; and two examples, one line with digits of both cases, more
spaces and a comment, and one assembled word as printed. Spacing and comments are the model's choice, log entry 12. -/
def Obligations.PrintedCommandsParse : Prop :=
  (∀ i : Instr, parseLine (printCommand i) = some (.command i)) ∧
  parseLine ['E', 'N', 'C', ' ', ' ', '0', 'x', '0', '1', '2', '3', '4', '5', '6', '7', '8', '9', 'a', 'b', 'C', 'D', 'e', 'f',
    ' ', ';', 'x'] = some (.command (.enc 0x0123456789ABCDEF#64)) ∧
  printWord (.enc 0x0123456789ABCDEF#64) =
    ['1', ':', '0', '1', '2', '3', '4', '5', '6', '7', '8', '9', 'A', 'B', 'C', 'D', 'E', 'F']

/-- R75: with every choice of case for each of its 16 digits a command line is read as the command, and the assembled form
`op:data` of every command is read and decodes to it. -/
def Obligations.DigitsOfEitherCaseAndWordsRead : Prop :=
  (∀ (i : Instr) (digits : List Char),
    List.Forall₂ (fun printed written => written = printed ∨ written = printed.toLower) (hexDigits i.data) digits →
    parseLine (mnemonicText i ++ [' ', '0', 'x'] ++ digits) = some (.command i)) ∧
  ∀ i : Instr, (readWord (printWord i)).map decodeRaw = some (.ok i)

/-- R76, R263: what a script line does on a core that has not been reset: RESET leaves every specified element at its reset
value, WAIT and READ are refused since they read an output, and a command or KEYSTR is refused since it offers one. The
refusals' form is the model's, log entry 4. -/
def Obligations.ScriptsStartWithReset : Prop :=
  ∀ s : State, s.resetSeen = false →
    (∃ t, runLine .reset s = .next (t, []) ∧ SpecifiedResetValues t) ∧
    runLine .wait s = .refused .readBeforeReset ∧ runLine .read s = .refused .readBeforeReset ∧
    (∀ i, runLine (.command i) s = .refused .commandBeforeReset) ∧
    ∀ text, runLine (.keystr text) s = .refused .commandBeforeReset

/-- R209, R272, R274: while the host keeps its duties and power is kept, no command of a core that has been reset raises NOKEY;
and a held offer that a step does not accept is, if the next step accepts a command, the command it accepts. -/
def Obligations.HostContractPreventsHazards : Prop :=
  (∀ (n : Nat) (s t : State), s.resetSeen = true → s.err ≠ 1 → KeepsPower s.inputs → keepsContract n s = true →
    Sys2Proof.core.run n s = .next t → t.err ≠ 1) ∧
  ∀ (s t : State) (p : Pins) (rest : List HostEvent) (i : Instr), s.inputs = .edge p :: rest →
    p.cmdValid = true → accepts p s = false → holdsOffer s = true → step s = .next t → stepKind t = .command i →
    decode p.word = i

/-- R209, skip KEY, and R206: a host that issues KEY only when it must gets from every call what a host that always issues it
gets, on a core that keeps the invariant of a core that has been reset and holds, if `key_valid` = 1, the schedule of the KEY
the host remembers. The core then holds the call's own key's schedule, so the next call may skip KEY too; an unaligned
buffer issues no command, with KEY skipped or not. What the host remembers is the model's choice, log entry 17. -/
def Obligations.SkippingKeyGivesSameBuffers : Prop :=
  (∀ (last : Option Block) (m c k : List Byte) (s : State), s.resetSeen = true → CoreInv s →
    (∀ key, last = some key → s.keyValid = true → s.KS = schedule key) →
    (∃ t, driverEncryptReusing last m k s = .next (t, .ok (encryptBuffer m k)) ∧
      t.resetSeen = true ∧ t.keyValid = true ∧ t.KS = schedule (keyOperand k)) ∧
    (c.length % 8 = 0 → ∃ t, driverDecryptReusing last c k s = .next (t, decryptBuffer c k) ∧
      t.resetSeen = true ∧ t.keyValid = true ∧ t.KS = schedule (keyOperand k))) ∧
  ∀ (last : Option Block) (c k : List Byte) (s : State), c.length % 8 ≠ 0 →
    driverDecryptReusing last c k s = .next (s, .error .notBlockAligned) ∧
    driverDecryptLoaded c s = .next (s, .error .notBlockAligned)
end

