-- ==== Sys2Proof/Laws/State.lean ====
section
/-!
SUPPORT. What each named state update leaves in each field, by `rfl`, so that no later proof unfolds a record update.
-/
namespace Sys2Proof.Machine

variable (s : State) (e : CoreError) (m : Mode) (b : Block)

@[simp] theorem raiseError_st : (raiseError e s).st = s.st := rfl
@[simp] theorem raiseError_ctr : (raiseError e s).ctr = s.ctr := rfl
@[simp] theorem raiseError_mode : (raiseError e s).mode = s.mode := rfl
@[simp] theorem raiseError_C : (raiseError e s).C = s.C := rfl
@[simp] theorem raiseError_D : (raiseError e s).D = s.D := rfl
@[simp] theorem raiseError_KS : (raiseError e s).KS = s.KS := rfl
@[simp] theorem raiseError_keyValid : (raiseError e s).keyValid = s.keyValid := rfl
@[simp] theorem raiseError_L : (raiseError e s).L = s.L := rfl
@[simp] theorem raiseError_R : (raiseError e s).R = s.R := rfl
@[simp] theorem raiseError_dout : (raiseError e s).dout = s.dout := rfl
@[simp] theorem raiseError_doutValid : (raiseError e s).doutValid = s.doutValid := rfl
@[simp] theorem raiseError_err : (raiseError e s).err = e.code := rfl
@[simp] theorem raiseError_resetSeen : (raiseError e s).resetSeen = s.resetSeen := rfl
@[simp] theorem raiseError_freeIx : (raiseError e s).freeIx = s.freeIx := rfl
@[simp] theorem raiseError_inputs : (raiseError e s).inputs = s.inputs := rfl

@[simp] theorem takeInput_st : (takeInput s).st = s.st := rfl
@[simp] theorem takeInput_ctr : (takeInput s).ctr = s.ctr := rfl
@[simp] theorem takeInput_mode : (takeInput s).mode = s.mode := rfl
@[simp] theorem takeInput_C : (takeInput s).C = s.C := rfl
@[simp] theorem takeInput_D : (takeInput s).D = s.D := rfl
@[simp] theorem takeInput_KS : (takeInput s).KS = s.KS := rfl
@[simp] theorem takeInput_keyValid : (takeInput s).keyValid = s.keyValid := rfl
@[simp] theorem takeInput_L : (takeInput s).L = s.L := rfl
@[simp] theorem takeInput_R : (takeInput s).R = s.R := rfl
@[simp] theorem takeInput_dout : (takeInput s).dout = s.dout := rfl
@[simp] theorem takeInput_doutValid : (takeInput s).doutValid = s.doutValid := rfl
@[simp] theorem takeInput_err : (takeInput s).err = s.err := rfl
@[simp] theorem takeInput_resetSeen : (takeInput s).resetSeen = s.resetSeen := rfl
@[simp] theorem takeInput_freeIx : (takeInput s).freeIx = s.freeIx := rfl
@[simp] theorem takeInput_inputs : (takeInput s).inputs = s.inputs.tail := rfl

@[simp] theorem acceptKey_st : (acceptKey b s).st = .keygen := rfl
@[simp] theorem acceptKey_ctr : (acceptKey b s).ctr = 0 := rfl
@[simp] theorem acceptKey_mode : (acceptKey b s).mode = s.mode := rfl
@[simp] theorem acceptKey_C : (acceptKey b s).C = initialC b := rfl
@[simp] theorem acceptKey_D : (acceptKey b s).D = initialD b := rfl
@[simp] theorem acceptKey_KS : (acceptKey b s).KS = s.KS := rfl
@[simp] theorem acceptKey_keyValid : (acceptKey b s).keyValid = false := rfl
@[simp] theorem acceptKey_L : (acceptKey b s).L = s.L := rfl
@[simp] theorem acceptKey_R : (acceptKey b s).R = s.R := rfl
@[simp] theorem acceptKey_dout : (acceptKey b s).dout = s.dout := rfl
@[simp] theorem acceptKey_doutValid : (acceptKey b s).doutValid = s.doutValid := rfl
@[simp] theorem acceptKey_err : (acceptKey b s).err = 0 := rfl
@[simp] theorem acceptKey_resetSeen : (acceptKey b s).resetSeen = s.resetSeen := rfl
@[simp] theorem acceptKey_freeIx : (acceptKey b s).freeIx = s.freeIx := rfl
@[simp] theorem acceptKey_inputs : (acceptKey b s).inputs = s.inputs := rfl

@[simp] theorem startBlock_st : (startBlock m b s).st = .round := rfl
@[simp] theorem startBlock_ctr : (startBlock m b s).ctr = 0 := rfl
@[simp] theorem startBlock_mode : (startBlock m b s).mode = m := rfl
@[simp] theorem startBlock_C : (startBlock m b s).C = s.C := rfl
@[simp] theorem startBlock_D : (startBlock m b s).D = s.D := rfl
@[simp] theorem startBlock_KS : (startBlock m b s).KS = s.KS := rfl
@[simp] theorem startBlock_keyValid : (startBlock m b s).keyValid = s.keyValid := rfl
@[simp] theorem startBlock_L : (startBlock m b s).L = initialL b := rfl
@[simp] theorem startBlock_R : (startBlock m b s).R = initialR b := rfl
@[simp] theorem startBlock_dout : (startBlock m b s).dout = s.dout := rfl
@[simp] theorem startBlock_doutValid : (startBlock m b s).doutValid = false := rfl
@[simp] theorem startBlock_err : (startBlock m b s).err = 0 := rfl
@[simp] theorem startBlock_resetSeen : (startBlock m b s).resetSeen = s.resetSeen := rfl
@[simp] theorem startBlock_freeIx : (startBlock m b s).freeIx = s.freeIx := rfl
@[simp] theorem startBlock_inputs : (startBlock m b s).inputs = s.inputs := rfl

@[simp] theorem keygenEdge_st : (keygenEdge s).st = if s.ctr = 15 then .idle else .keygen := rfl
@[simp] theorem keygenEdge_ctr : (keygenEdge s).ctr = if s.ctr = 15 then 0 else s.ctr + 1 := rfl
@[simp] theorem keygenEdge_mode : (keygenEdge s).mode = s.mode := rfl
@[simp] theorem keygenEdge_C : (keygenEdge s).C = rotl28 s.C (shiftOf s.ctr.toNat) := rfl
@[simp] theorem keygenEdge_D : (keygenEdge s).D = rotl28 s.D (shiftOf s.ctr.toNat) := rfl
@[simp] theorem keygenEdge_KS : (keygenEdge s).KS = writeKS s s.ctr (subkeyOf (rotl28 s.C (shiftOf s.ctr.toNat)) (rotl28 s.D (shiftOf s.ctr.toNat))) := rfl
@[simp] theorem keygenEdge_keyValid : (keygenEdge s).keyValid = if s.ctr = 15 then true else s.keyValid := rfl
@[simp] theorem keygenEdge_L : (keygenEdge s).L = s.L := rfl
@[simp] theorem keygenEdge_R : (keygenEdge s).R = s.R := rfl
@[simp] theorem keygenEdge_dout : (keygenEdge s).dout = s.dout := rfl
@[simp] theorem keygenEdge_doutValid : (keygenEdge s).doutValid = s.doutValid := rfl
@[simp] theorem keygenEdge_err : (keygenEdge s).err = s.err := rfl
@[simp] theorem keygenEdge_resetSeen : (keygenEdge s).resetSeen = s.resetSeen := rfl
@[simp] theorem keygenEdge_freeIx : (keygenEdge s).freeIx = s.freeIx := rfl
@[simp] theorem keygenEdge_inputs : (keygenEdge s).inputs = s.inputs := rfl

@[simp] theorem roundEdge_st : (roundEdge s).st = if s.ctr = 15 then .idle else .round := rfl
@[simp] theorem roundEdge_ctr : (roundEdge s).ctr = if s.ctr = 15 then 0 else s.ctr + 1 := rfl
@[simp] theorem roundEdge_mode : (roundEdge s).mode = s.mode := rfl
@[simp] theorem roundEdge_C : (roundEdge s).C = s.C := rfl
@[simp] theorem roundEdge_D : (roundEdge s).D = s.D := rfl
@[simp] theorem roundEdge_KS : (roundEdge s).KS = s.KS := rfl
@[simp] theorem roundEdge_keyValid : (roundEdge s).keyValid = s.keyValid := rfl
@[simp] theorem roundEdge_L : (roundEdge s).L = (nextHalves s).1 := rfl
@[simp] theorem roundEdge_R : (roundEdge s).R = (nextHalves s).2 := rfl
@[simp] theorem roundEdge_dout : (roundEdge s).dout = if s.ctr = 15 then finalBlock (nextHalves s).1 (nextHalves s).2 else s.dout := rfl
@[simp] theorem roundEdge_doutValid : (roundEdge s).doutValid = if s.ctr = 15 then true else s.doutValid := rfl
@[simp] theorem roundEdge_err : (roundEdge s).err = s.err := rfl
@[simp] theorem roundEdge_resetSeen : (roundEdge s).resetSeen = s.resetSeen := rfl
@[simp] theorem roundEdge_freeIx : (roundEdge s).freeIx = s.freeIx := rfl
@[simp] theorem roundEdge_inputs : (roundEdge s).inputs = s.inputs := rfl

@[simp] theorem resetEdge_st : (resetEdge s).st = .idle := rfl
@[simp] theorem resetEdge_ctr : (resetEdge s).ctr = 0 := rfl
@[simp] theorem resetEdge_mode : (resetEdge s).mode = Config.freeMode s.freeIx := rfl
@[simp] theorem resetEdge_C : (resetEdge s).C = Config.freeC s.freeIx := rfl
@[simp] theorem resetEdge_D : (resetEdge s).D = Config.freeD s.freeIx := rfl
@[simp] theorem resetEdge_KS : (resetEdge s).KS = Config.freeKS s.freeIx := rfl
@[simp] theorem resetEdge_keyValid : (resetEdge s).keyValid = false := rfl
@[simp] theorem resetEdge_L : (resetEdge s).L = Config.freeL s.freeIx := rfl
@[simp] theorem resetEdge_R : (resetEdge s).R = Config.freeR s.freeIx := rfl
@[simp] theorem resetEdge_dout : (resetEdge s).dout = 0 := rfl
@[simp] theorem resetEdge_doutValid : (resetEdge s).doutValid = false := rfl
@[simp] theorem resetEdge_err : (resetEdge s).err = 0 := rfl
@[simp] theorem resetEdge_resetSeen : (resetEdge s).resetSeen = true := rfl
@[simp] theorem resetEdge_freeIx : (resetEdge s).freeIx = s.freeIx + 1 := rfl
@[simp] theorem resetEdge_inputs : (resetEdge s).inputs = s.inputs := rfl

@[simp] theorem unresetCore_resetSeen : (unresetCore s).resetSeen = false := rfl
@[simp] theorem unresetCore_freeIx : (unresetCore s).freeIx = s.freeIx + 1 := rfl
@[simp] theorem unresetCore_inputs : (unresetCore s).inputs = s.inputs := rfl

end Sys2Proof.Machine
end

