-- ==== Sys2Proof/Laws/Ops.lean ====
section
/-!
SUPPORT. What the shared operations do, once each: the subkey file, `cmd_ready`, acceptance, and the continuation of an
outcome.
-/
namespace Sys2Proof.Machine

@[simp] theorem ksIndex_val (j : BitVec 4) : (ksIndex j).val = j.toNat := rfl

/-- Writing entry `j` of the subkey file changes that entry and no other (rule R30). -/
theorem writeKS_get (s : State) (j : BitVec 4) (v : Subkey) (k : Fin 16) :
    (writeKS s j v)[k] = if k = ksIndex j then v else s.KS[k] := by
  by_cases h : k = ksIndex j
  · subst h; simp [writeKS]
  · have h' : (ksIndex j).val ≠ k.val := fun e => h (Fin.ext e.symm)
    simp only [h, if_false]
    exact Vector.getElem_set_ne _ _ h'

theorem cmdReady_eq_true (rst : Bool) (s : State) : cmdReady rst s = true ↔ s.st = .idle ∧ rst = false := by
  simp [cmdReady]

theorem accepts_eq_true (p : Pins) (s : State) :
    accepts p s = true ↔ p.rst = false ∧ p.cmdValid = true ∧ s.st = .idle := by
  simp only [accepts, Bool.and_eq_true, cmdReady_eq_true, Bool.not_eq_true']
  tauto

/-- Advancing the counter before 15 adds one (rule R25). -/
theorem ctr_succ_toNat (c : BitVec 4) (h : c ≠ 15) : (c + 1).toNat = c.toNat + 1 := by
  have all : ∀ c : BitVec 4, c ≠ 15 → (c + 1).toNat = c.toNat + 1 := by decide
  exact all c h

/-- The control fields after a KEYGEN step before the last (rule R133). -/
theorem keygenEdge_advance (s : State) (h : s.ctr ≠ 15) :
    (keygenEdge s).ctr = s.ctr + 1 ∧ (keygenEdge s).st = .keygen ∧ (keygenEdge s).keyValid = s.keyValid :=
  ⟨if_neg h, if_neg h, if_neg h⟩

/-- The control fields after the last KEYGEN step (rule R134). -/
theorem keygenEdge_complete (s : State) (h : s.ctr = 15) :
    (keygenEdge s).ctr = 0 ∧ (keygenEdge s).st = .idle ∧ (keygenEdge s).keyValid = true :=
  ⟨if_pos h, if_pos h, if_pos h⟩

/-- The control and output fields after a ROUND step before the last (rule R176). -/
theorem roundEdge_advance (s : State) (h : s.ctr ≠ 15) :
    (roundEdge s).ctr = s.ctr + 1 ∧ (roundEdge s).st = .round ∧ (roundEdge s).dout = s.dout ∧
      (roundEdge s).doutValid = s.doutValid :=
  ⟨if_neg h, if_neg h, if_neg h, if_neg h⟩

/-- The control and output fields after the last ROUND step (rule R177). -/
theorem roundEdge_complete (s : State) (h : s.ctr = 15) :
    (roundEdge s).ctr = 0 ∧ (roundEdge s).st = .idle ∧
      (roundEdge s).dout = finalBlock (nextHalves s).1 (nextHalves s).2 ∧ (roundEdge s).doutValid = true :=
  ⟨if_pos h, if_pos h, if_pos h, if_pos h⟩

/-- A block command over a complete schedule starts (rules R170, R171). -/
theorem acceptBlock_starts (m : Mode) (b : Block) (s : State) (h : s.keyValid = true) :
    acceptBlock m b s = startBlock m b s := if_pos h

/-- A block command without one raises NOKEY (rule R232). -/
theorem acceptBlock_nokey (m : Mode) (b : Block) (s : State) (h : s.keyValid = false) :
    acceptBlock m b s = raiseError .nokey s := if_neg (by simp [h])

@[simp] theorem code_ok : CoreError.ok.code = 0 := rfl
@[simp] theorem code_nokey : CoreError.nokey.code = 1 := rfl
@[simp] theorem code_illegal : CoreError.illegal.code = 2 := rfl

@[simp] theorem andThen_next {α β : Type} (a : α) (f : α → Host.Outcome β Fault Refusal) :
    andThen (.next a) f = f a := rfl

/-- A continued outcome is a next value exactly when both parts are. -/
theorem andThen_eq_next {α β : Type} (o : Host.Outcome α Fault Refusal) (f : α → Host.Outcome β Fault Refusal) (b : β) :
    andThen o f = .next b ↔ ∃ a, o = .next a ∧ f a = .next b := by
  cases o <;> simp [andThen]

end Sys2Proof.Machine
end

