-- ==== Sys2Proof/Laws/Step.lean ====
section
/-!
SUPPORT. What one step can do, said once (rules R27, R235, R263), and how runs are cut.
-/
namespace Sys2Proof.Machine

/-- Every command's acceptance edge answers a next state: the core has no trap (rule R231). -/
theorem exec_next (i : Instr) (s : State) : ∃ t, exec i s = .next t := by
  cases i <;> exact ⟨_, rfl⟩

theorem stepKind_cons_edge (s : State) (p : Pins) (rest : List HostEvent) (h : s.inputs = .edge p :: rest) :
    stepKind s = edgeKind p s := by
  simp [stepKind, currentEvent, h]

theorem edgeKind_reset (p : Pins) (s : State) (h : p.rst = true) : edgeKind p s = .other .reset := by
  simp [edgeKind, h]

theorem edgeKind_running (p : Pins) (s : State) (h : p.rst = false) (hs : s.resetSeen = true) :
    edgeKind p s = runningEdgeKind p s := by
  simp [edgeKind, h, hs]

/-- With `rst` = 0 a core that has been reset does one of four things (rules R27, R133, R176, R244). -/
theorem runningEdgeKind_cases (p : Pins) (s : State) :
    (s.st = .idle ∧ accepts p s = true ∧ runningEdgeKind p s = .command (decode p.word)) ∨
    (s.st = .idle ∧ accepts p s = false ∧ runningEdgeKind p s = .other .idle) ∨
    (s.st = .keygen ∧ runningEdgeKind p s = .other .keygen) ∨
    (s.st = .round ∧ runningEdgeKind p s = .other .round) := by
  cases hs : s.st <;> simp [runningEdgeKind, hs]

/-- The next state of a command's acceptance edge. -/
def afterExec (i : Instr) (s : State) : State :=
  match i with
  | .key data => acceptKey data s
  | .enc data => acceptBlock .encrypt data s
  | .dec data => acceptBlock .decrypt data s
  | .rsvd _ => raiseError .illegal s

/-- The fields no acceptance edge writes (rules R130, R170, R171, R172). -/
@[simp] theorem afterExec_inputs (i : Instr) (s : State) : (afterExec i s).inputs = s.inputs := by
  cases i <;> simp only [afterExec, acceptBlock] <;> (try split) <;> rfl
@[simp] theorem afterExec_resetSeen (i : Instr) (s : State) : (afterExec i s).resetSeen = s.resetSeen := by
  cases i <;> simp only [afterExec, acceptBlock] <;> (try split) <;> rfl
@[simp] theorem afterExec_freeIx (i : Instr) (s : State) : (afterExec i s).freeIx = s.freeIx := by
  cases i <;> simp only [afterExec, acceptBlock] <;> (try split) <;> rfl
@[simp] theorem afterExec_KS (i : Instr) (s : State) : (afterExec i s).KS = s.KS := by
  cases i <;> simp only [afterExec, acceptBlock] <;> (try split) <;> rfl
@[simp] theorem afterExec_dout (i : Instr) (s : State) : (afterExec i s).dout = s.dout := by
  cases i <;> simp only [afterExec, acceptBlock] <;> (try split) <;> rfl

theorem exec_eq (i : Instr) (s : State) : exec i s = .next (afterExec i s) := by cases i <;> rfl

/-- A rising edge with `rst` = 1, before or after the first reset (rules R235, R260). -/
theorem step_reset (s : State) (p : Pins) (rest : List HostEvent) (hin : s.inputs = .edge p :: rest)
    (hr : p.rst = true) : step s = .next (resetEdge (takeInput s)) := by
  simp [step, stepKind_cons_edge s p rest hin, edgeKind_reset p s hr, otherStep]

/-- The acceptance edge of a command (rule R27). -/
theorem step_accept (s : State) (p : Pins) (rest : List HostEvent) (hin : s.inputs = .edge p :: rest)
    (hs : s.resetSeen = true) (hr : p.rst = false) (hst : s.st = .idle) (hv : p.cmdValid = true) :
    step s = .next (afterExec (decode p.word) (takeInput s)) := by
  have ha := (accepts_eq_true p s).2 ⟨hr, hv, hst⟩
  simp [step, stepKind_cons_edge s p rest hin, edgeKind_running p s hr hs, runningEdgeKind, hst, ha, exec_eq]

/-- An edge in IDLE with nothing offered (rule R244). -/
theorem step_idle (s : State) (p : Pins) (rest : List HostEvent) (hin : s.inputs = .edge p :: rest)
    (hs : s.resetSeen = true) (hr : p.rst = false) (hst : s.st = .idle) (hv : p.cmdValid = false) :
    step s = .next (takeInput s) := by
  simp [step, stepKind_cons_edge s p rest hin, edgeKind_running p s hr hs, runningEdgeKind, hst, accepts, hv, otherStep]

/-- An edge in KEYGEN (rule R133). -/
theorem step_keygen (s : State) (p : Pins) (rest : List HostEvent) (hin : s.inputs = .edge p :: rest)
    (hs : s.resetSeen = true) (hr : p.rst = false) (hst : s.st = .keygen) :
    step s = .next (keygenEdge (takeInput s)) := by
  simp [step, stepKind_cons_edge s p rest hin, edgeKind_running p s hr hs, runningEdgeKind, hst, otherStep]

/-- An edge in ROUND (rule R176). -/
theorem step_round (s : State) (p : Pins) (rest : List HostEvent) (hin : s.inputs = .edge p :: rest)
    (hs : s.resetSeen = true) (hr : p.rst = false) (hst : s.st = .round) :
    step s = .next (roundEdge (takeInput s)) := by
  simp [step, stepKind_cons_edge s p rest hin, edgeKind_running p s hr hs, runningEdgeKind, hst, otherStep]

/-- Consuming an input. -/
theorem takeInput_cons (s : State) (e : HostEvent) (rest : List HostEvent) (h : s.inputs = e :: rest) :
    takeInput s = { s with inputs := rest } := by
  simp [takeInput, h]

/-- Everything a rising edge can do to a core that has been reset. -/
theorem step_running_cases (s : State) (p : Pins) (rest : List HostEvent) (hin : s.inputs = .edge p :: rest)
    (hs : s.resetSeen = true) :
    (p.rst = true ∧ step s = .next (resetEdge (takeInput s))) ∨
    (p.rst = false ∧ s.st = .idle ∧ p.cmdValid = true ∧ step s = .next (afterExec (decode p.word) (takeInput s))) ∨
    (p.rst = false ∧ s.st = .idle ∧ p.cmdValid = false ∧ step s = .next (takeInput s)) ∨
    (p.rst = false ∧ s.st = .keygen ∧ step s = .next (keygenEdge (takeInput s))) ∨
    (p.rst = false ∧ s.st = .round ∧ step s = .next (roundEdge (takeInput s))) := by
  cases hr : p.rst with
  | true => exact .inl ⟨rfl, step_reset s p rest hin hr⟩
  | false =>
    cases hst : s.st with
    | idle =>
      cases hv : p.cmdValid with
      | true => exact .inr (.inl ⟨rfl, rfl, rfl, step_accept s p rest hin hs hr hst hv⟩)
      | false => exact .inr (.inr (.inl ⟨rfl, rfl, rfl, step_idle s p rest hin hs hr hst hv⟩))
    | keygen => exact .inr (.inr (.inr (.inl ⟨rfl, rfl, step_keygen s p rest hin hs hr hst⟩)))
    | round => exact .inr (.inr (.inr (.inr ⟨rfl, rfl, step_round s p rest hin hs hr hst⟩)))

/-- Everything any step can do: the five edges of a core that has been reset (with no input left, the edge of `Pins.quiet`),
the two edges of a core that has not, and the two events without an edge. -/
theorem step_cases (s : State) :
    (currentEvent s = .powerCycle ∧ step s = .next (unresetCore (takeInput s))) ∨
    (currentEvent s = .clkStopped ∧ step s = .next (takeInput s)) ∨
    (∃ p, currentEvent s = .edge p ∧ p.rst = true ∧ step s = .next (resetEdge (takeInput s))) ∨
    (∃ p, currentEvent s = .edge p ∧ p.rst = false ∧ s.resetSeen = false ∧ p.cmdValid = true ∧
      step s = .refused .commandBeforeReset) ∨
    (∃ p, currentEvent s = .edge p ∧ p.rst = false ∧ s.resetSeen = false ∧ p.cmdValid = false ∧
      step s = .next (unresetCore (takeInput s))) ∨
    (∃ p, currentEvent s = .edge p ∧ p.rst = false ∧ s.resetSeen = true ∧ s.st = .idle ∧ p.cmdValid = true ∧
      step s = .next (afterExec (decode p.word) (takeInput s))) ∨
    (∃ p, currentEvent s = .edge p ∧ p.rst = false ∧ s.resetSeen = true ∧ s.st = .idle ∧ p.cmdValid = false ∧
      step s = .next (takeInput s)) ∨
    (∃ p, currentEvent s = .edge p ∧ p.rst = false ∧ s.resetSeen = true ∧ s.st = .keygen ∧
      step s = .next (keygenEdge (takeInput s))) ∨
    (∃ p, currentEvent s = .edge p ∧ p.rst = false ∧ s.resetSeen = true ∧ s.st = .round ∧
      step s = .next (roundEdge (takeInput s))) := by
  cases he : currentEvent s with
  | powerCycle => left; exact ⟨rfl, by simp [step, stepKind, he, otherStep]⟩
  | clkStopped => right; left; exact ⟨rfl, by simp [step, stepKind, he, otherStep]⟩
  | edge p =>
    right; right
    have hk : stepKind s = edgeKind p s := by simp [stepKind, he]
    cases hr : p.rst with
    | true => left; exact ⟨p, rfl, hr, by simp [step, hk, edgeKind, hr, otherStep]⟩
    | false =>
      right
      cases hs : s.resetSeen with
      | false =>
        cases hv : p.cmdValid with
        | true => left; exact ⟨p, rfl, hr, rfl, hv, by simp [step, hk, edgeKind, hr, hs, hv, otherStep]⟩
        | false => right; left; exact ⟨p, rfl, hr, rfl, hv, by simp [step, hk, edgeKind, hr, hs, hv, otherStep]⟩
      | true =>
        right; right
        rw [edgeKind_running p s hr hs] at hk
        rcases runningEdgeKind_cases p s with ⟨h1, h2, h3⟩ | ⟨h1, h2, h3⟩ | ⟨h1, h3⟩ | ⟨h1, h3⟩ <;> rw [h3] at hk
        · left; exact ⟨p, rfl, hr, rfl, h1, ((accepts_eq_true p s).1 h2).2.1, by simp [step, hk, exec_eq]⟩
        · right; left
          refine ⟨p, rfl, hr, rfl, h1, ?_, by simp [step, hk, otherStep]⟩
          cases hv : p.cmdValid with
          | false => rfl
          | true => exact absurd ((accepts_eq_true p s).2 ⟨hr, hv, h1⟩) (by simp [h2])
        · right; right; left; exact ⟨p, rfl, hr, rfl, h1, by simp [step, hk, otherStep]⟩
        · right; right; right; exact ⟨p, rfl, hr, rfl, h1, by simp [step, hk, otherStep]⟩

@[simp] theorem core_step : Sys2Proof.core.step = step := rfl

theorem run_zero (s : State) : Sys2Proof.core.run 0 s = .next s := rfl

theorem run_succ_of_next (n : Nat) (s t : State) (h : step s = .next t) :
    Sys2Proof.core.run (n + 1) s = Sys2Proof.core.run n t := by
  simp [Host.Core.run, h]

/-- A run of `m + n` steps is a run of `m` and then one of `n`. -/
theorem run_add (m n : Nat) (s t : State) (h : Sys2Proof.core.run m s = .next t) :
    Sys2Proof.core.run (m + n) s = Sys2Proof.core.run n t := by
  induction m generalizing s with
  | zero => rw [run_zero] at h; cases h; rw [Nat.zero_add]
  | succ m ih =>
    rw [Nat.succ_add]
    simp only [Host.Core.run] at h ⊢
    cases hs : Sys2Proof.core.step s with
    | next u => rw [hs] at h; exact ih u h
    | fault r => rw [hs] at h; cases h
    | refused r => rw [hs] at h; cases h

end Sys2Proof.Machine
end

