-- ==== Sys2Proof/Laws/Driver.lean ====
section
/-!
SUPPORT. What the driver's operations do, once each: lengths, the wait for `cmd_ready`, and one clock edge.
-/
namespace Sys2Proof.Machine

@[simp] theorem bytesOfBlock_length (v : Block) : (bytesOfBlock v).length = 8 := rfl

@[simp] theorem normalizeKey_length (k : List Byte) : (normalizeKey k).length = 8 := by
  unfold normalizeKey
  split <;> simp <;> omega

theorem padCount_range (m : List Byte) : 1 ≤ padCount m ∧ padCount m ≤ 8 := by
  unfold padCount
  omega

@[simp] theorem pad_length (m : List Byte) : (pad m).length = m.length + padCount m := by simp [pad]

@[simp] theorem mapBlocks_length (f : Block → Block) (n : Nat) (p : List Byte) : (mapBlocks f n p).length = 8 * n := by
  induction n generalizing p with
  | zero => rfl
  | succ n ih => rw [mapBlocks, List.length_append, ih, bytesOfBlock_length]; omega

/-- The wait ends at once in IDLE. -/
theorem driveUntilReady_idle (p : Pins) (n : Nat) (s : State) (hp : p.rst = false) (h : s.st = .idle) :
    driveUntilReady p n s = .next s := by
  cases n with
  | zero => rfl
  | succ n => rw [driveUntilReady, if_pos ((cmdReady_eq_true _ _).2 ⟨h, hp⟩)]

/-- The wait takes an edge while the core is busy. -/
theorem driveUntilReady_busy (p : Pins) (n : Nat) (s t : State) (h : s.st ≠ .idle) (hs : clockWith p s = .next t) :
    driveUntilReady p (n + 1) s = driveUntilReady p n t := by
  rw [driveUntilReady, if_neg (fun e => h ((cmdReady_eq_true _ _).1 e).1), hs]
  rfl

/-- One edge of a core that has been reset answers a next state that has been reset, with no input left. -/
theorem clockWith_next (p : Pins) (s : State) (hs : s.resetSeen = true) :
    ∃ t, clockWith p s = .next t ∧ t.resetSeen = true ∧ t.inputs = [] := by
  rcases step_running_cases { s with inputs := [.edge p] } p [] rfl hs with h | h | h | h | h
  · exact ⟨_, h.2, rfl, rfl⟩
  · exact ⟨_, h.2.2.2, by simpa using hs, by simp⟩
  · exact ⟨_, h.2.2.2, hs, rfl⟩
  · exact ⟨_, h.2.2, hs, rfl⟩
  · exact ⟨_, h.2.2, hs, rfl⟩

/-- The wait answers a next state that has been reset. -/
theorem driveUntilReady_next (p : Pins) (n : Nat) (s : State) (hs : s.resetSeen = true) :
    ∃ t, driveUntilReady p n s = .next t ∧ t.resetSeen = true := by
  induction n generalizing s with
  | zero => exact ⟨s, rfl, hs⟩
  | succ n ih =>
    rw [driveUntilReady]
    split
    · exact ⟨s, rfl, hs⟩
    · obtain ⟨t, h, ht, -⟩ := clockWith_next p s hs
      rw [h]
      exact ih t ht

/-- Waiting reads an output: it goes on exactly when a reset edge has been seen (rule R263). -/
theorem waitReady_cases (s : State) :
    (s.resetSeen = true ∧ ∃ t, waitReady s = .next t ∧ t.resetSeen = true) ∨
    (s.resetSeen = false ∧ waitReady s = .refused .readBeforeReset) := by
  cases hs : s.resetSeen with
  | true =>
    obtain ⟨t, h, ht⟩ := driveUntilReady_next Pins.quiet busyEdges s hs
    exact .inl ⟨rfl, t, by simp [waitReady, hs, h], ht⟩
  | false => exact .inr ⟨rfl, by simp [waitReady, hs]⟩

theorem waitReady_of_reset (s : State) (hs : s.resetSeen = true) :
    waitReady s = driveUntilReady Pins.quiet busyEdges s := if_pos hs

/-- An offered command, with the wait before it, answers a next state that has been reset. -/
theorem offerCommand_next (i : Instr) (s : State) (hs : s.resetSeen = true) :
    ∃ t, offerCommand i s = .next t ∧ t.resetSeen = true := by
  obtain ⟨u, h, hu⟩ := driveUntilReady_next (Pins.offer i) busyEdges s hs
  obtain ⟨t, g, ht, -⟩ := clockWith_next (Pins.offer i) u hu
  exact ⟨t, by rw [offerCommand, h]; exact g, ht⟩

theorem maySkipKey_eq_true (last : Option Block) (k : List Byte) (s : State) :
    maySkipKey last k s = true ↔ last = some (keyOperand k) ∧ s.keyValid = true := by simp [maySkipKey]

/-- An unaligned buffer issues no command, with or without KEY (rule R206). -/
theorem driverDecryptLoaded_unaligned (c : List Byte) (s : State) (h : c.length % 8 ≠ 0) :
    driverDecryptLoaded c s = .next (s, .error .notBlockAligned) := if_pos h

theorem driverDecrypt_unaligned (c k : List Byte) (s : State) (h : c.length % 8 ≠ 0) :
    driverDecrypt c k s = .next (s, .error .notBlockAligned) := if_pos h

theorem driverDecryptLoaded_aligned (c : List Byte) (s : State) (h : c.length % 8 = 0) :
    driverDecryptLoaded c s = decryptAligned c s := if_neg (by omega)

theorem driverDecrypt_aligned (c k : List Byte) (s : State) (h : c.length % 8 = 0) :
    driverDecrypt c k s = withKey k s (decryptAligned c) := if_neg (by omega)

/-- An unaligned buffer is rejected with the core unchanged, whether KEY would be skipped or not. -/
theorem driverDecryptReusing_unaligned (last : Option Block) (c k : List Byte) (s : State) (h : c.length % 8 ≠ 0) :
    driverDecryptReusing last c k s = .next (s, .error .notBlockAligned) :=
  if_pos h

/-- On a core that has been reset the host either skips KEY, because the key is unchanged and `key_valid` = 1, or issues it. -/
theorem withKeyReused_cases (last : Option Block) (k : List Byte) (s : State) (rest : State → DriverResult)
    (hs : s.resetSeen = true) :
    (last = some (keyOperand k) ∧ s.keyValid = true ∧ withKeyReused last k s rest = rest s) ∨
    (¬(last = some (keyOperand k) ∧ s.keyValid = true) ∧ withKeyReused last k s rest = withKey k s rest) := by
  by_cases h : maySkipKey last k s = true
  · obtain ⟨h1, h2⟩ := (maySkipKey_eq_true last k s).1 h
    exact .inl ⟨h1, h2, by simp [withKeyReused, hs, h]⟩
  · exact .inr ⟨fun g => h ((maySkipKey_eq_true last k s).2 g), by simp [withKeyReused, hs, h]⟩

/-- Every line of a script answers a next state on a core that has been reset. -/
theorem runLine_next (line : ScriptLine) (s : State) (hs : s.resetSeen = true) :
    ∃ r, runLine line s = .next r ∧ r.1.resetSeen = true := by
  cases line with
  | command i => obtain ⟨t, h, ht⟩ := offerCommand_next i s hs; exact ⟨(t, []), by simp [runLine, withoutSample, h], ht⟩
  | reset => obtain ⟨t, h, ht, -⟩ := clockWith_next Pins.reset s hs; exact ⟨(t, []), by simp [runLine, withoutSample, h], ht⟩
  | wait =>
    obtain ⟨t, h, ht⟩ := driveUntilReady_next Pins.quiet busyEdges s hs
    exact ⟨(t, []), by simp [runLine, withoutSample, waitReady_of_reset s hs, h], ht⟩
  | read =>
    obtain ⟨t, h, ht⟩ := driveUntilReady_next Pins.quiet busyEdges s hs
    exact ⟨(t, [sampleOf t]), by simp [runLine, waitReady_of_reset s hs, h, readOutputs, ht], ht⟩
  | keystr text =>
    obtain ⟨t, h, ht⟩ := offerCommand_next (keystrCommand text) s hs
    exact ⟨(t, []), by simp [runLine, withoutSample, h], ht⟩

end Sys2Proof.Machine
end

