-- ==== Sys2Proof/Laws/Engine.lean ====
section
/-!
SUPPORT. What a KEYGEN edge and a ROUND edge do to the key and the block in progress, in terms of the pure functions
(rules R133, R135, R174, R176, R179).
-/
namespace Sys2Proof.Machine

/-- If the halves and the entries below `ctr` are those of a key's schedule, so are the entries up to `ctr` after the edge
(rules R133, R135). -/
theorem keygenEdge_extends_schedule (key : Block) (s : State)
    (hc : s.C = scheduleC key s.ctr.toNat) (hd : s.D = scheduleD key s.ctr.toNat)
    (hk : ∀ i : Fin 16, i.val < s.ctr.toNat → s.KS[i] = scheduleEntry key i)
    (i : Fin 16) (hi : i.val < s.ctr.toNat + 1) : (keygenEdge s).KS[i] = scheduleEntry key i := by
  rw [keygenEdge_KS, writeKS_get]
  split
  · rename_i h
    have : i.val = s.ctr.toNat := by rw [h, ksIndex_val]
    rw [scheduleEntry, scheduleC, scheduleD, this, hc, hd]
  · rename_i h
    have : i.val ≠ s.ctr.toNat := fun e => h (Fin.ext (by rw [ksIndex_val, e]))
    exact hk i (by omega)

/-- The subkey index of rule R174 is the entry of the order of rule R179. -/
theorem orderOf_get : ∀ (m : Mode) (c : BitVec 4), (orderOf m)[c.toNat]? = some (ksIndex (subkeyIndex m c)) := by
  intro m c
  cases m <;> revert c <;> decide

theorem orderOf_take_succ (m : Mode) (c : BitVec 4) :
    (orderOf m).take (c.toNat + 1) = (orderOf m).take c.toNat ++ [ksIndex (subkeyIndex m c)] := by
  rw [List.take_add_one, orderOf_get]
  rfl

/-- If the halves are those of a block after `ctr` rounds, they are those after one round more after the edge (rules R175,
R176). -/
theorem roundEdge_runs_one_round (s : State) (lr : Half × Half)
    (h : (s.L, s.R) = runRounds s.KS ((orderOf s.mode).take s.ctr.toNat) lr) :
    ((roundEdge s).L, (roundEdge s).R) = runRounds s.KS ((orderOf s.mode).take (s.ctr.toNat + 1)) lr := by
  rw [orderOf_take_succ, runRounds, List.foldl_append]
  rw [runRounds] at h
  rw [← h]
  rfl

/-- A round between two swaps is undone by the same round (rule R152). -/
theorem feistelRound_swap (lr : Half × Half) (k : Subkey) :
    feistelRound (feistelRound lr.1 lr.2 k).2 (feistelRound lr.1 lr.2 k).1 k = lr.swap := by
  simp [feistelRound, Prod.swap]

end Sys2Proof.Machine
end

