-- ==== Sys2Proof/Laws/PerInstr.lean ====
section
/-!
SUPPORT. Laws per command, one lemma per constructor: where the two fields of its command word stand (rules R70, R71).
-/
namespace Sys2Proof.Laws

/-- A word assembled from its fields has them back: `W[65:64]` and `W[63:0]` (rule R70). -/
theorem fields_of_assemble (op : BitVec 2) (data : Block) :
    opField (assemble op data) = op ∧ dataField (assemble op data) = data := by
  constructor
  · apply BitVec.eq_of_getLsbD_eq
    intro i h
    have h1 := BitVec.getLsbD_append (x := op) (y := data) (i := 64 + i)
    have h2 : ¬ 64 + i < 64 := by omega
    rw [if_neg h2, Nat.add_sub_cancel_left] at h1
    rw [opField, BitVec.getLsbD_extractLsb', ← h1]
    simp [assemble, h]
  · apply BitVec.eq_of_getLsbD_eq
    intro i h
    have h1 := BitVec.getLsbD_append (x := op) (y := data) (i := i)
    rw [if_pos h] at h1
    rw [dataField, BitVec.getLsbD_extractLsb', ← h1]
    simp [assemble, h]

/-- The word of a command carries its opcode at bits 65:64 and its operand at bits 63:0. -/
def CommandWordFields.Statement (i : Instr) : Prop :=
  i.wellFormed = true ∧ opField (encode i) = i.opcode ∧ dataField (encode i) = i.data

theorem CommandWordFields.key (data : Block) : CommandWordFields.Statement (.key data) :=
  ⟨rfl, fields_of_assemble _ _⟩

theorem CommandWordFields.enc (data : Block) : CommandWordFields.Statement (.enc data) :=
  ⟨rfl, fields_of_assemble _ _⟩

theorem CommandWordFields.dec (data : Block) : CommandWordFields.Statement (.dec data) :=
  ⟨rfl, fields_of_assemble _ _⟩

theorem CommandWordFields.rsvd (data : Block) : CommandWordFields.Statement (.rsvd data) :=
  ⟨rfl, fields_of_assemble _ _⟩

end Sys2Proof.Laws
end

