-- ==== Sys2Proof/Laws/Permutation.lean ====
section
/-!
SUPPORT. The one law of the permutation primitive (rule R11), and what follows for equality and complement.
-/
namespace Sys2Proof.Machine

theorem seq_shiftConcat {n : Nat} (w : BitVec n) (b : Bool) (i : Nat) (h : i < n) :
    seq (w.shiftConcat b) i = if i = n - 1 then b else seq w (i + 1) := by
  simp only [seq, BitVec.getMsbD_eq_getLsbD, BitVec.getLsbD_shiftConcat, h, decide_true, Bool.true_and]
  by_cases hi : i = n - 1
  · have : n - 1 - i < n := by omega
    simp [hi]; omega
  · have h1 : i + 1 < n := by omega
    have h2 : n - 1 - i ≠ 0 := by omega
    have h3 : n - 1 - i - 1 = n - 1 - (i + 1) := by omega
    have h4 : n - 1 - i < n := by omega
    simp [hi, h1, h2, h3, h4]

theorem seq_ext {n : Nat} {v w : BitVec n} (h : ∀ i, i < n → seq v i = seq w i) : v = w :=
  BitVec.eq_of_getMsbD_eq h

theorem seq_fold {m n : Nat} (v : BitVec n) (l : List Nat) (w : BitVec m) (i : Nat) (h : i < m) (hl : l.length ≤ m) :
    seq (l.foldl (fun w i => w.shiftConcat (seq v i)) w) i =
      if h' : m - l.length ≤ i then seq v (l[i - (m - l.length)]'(by omega)) else seq w (i + l.length) := by
  induction l generalizing w with
  | nil => simp only [List.foldl_nil, List.length_nil]; rw [dif_neg (by omega)]; rfl
  | cons a l ih =>
    have hlen : (a :: l).length = l.length + 1 := rfl
    rw [List.foldl_cons, ih _ (by omega)]
    by_cases h1 : m - l.length ≤ i
    · have h2 : m - (a :: l).length ≤ i := by omega
      have h3 : i - (m - (a :: l).length) = (i - (m - l.length)) + 1 := by omega
      simp only [h1, h2, dif_pos, h3, List.getElem_cons_succ]
    · rw [dif_neg h1, seq_shiftConcat _ _ _ (by omega)]
      by_cases h2 : m - (a :: l).length ≤ i
      · have h3 : i - (m - (a :: l).length) = 0 := by omega
        have h4 : i + l.length = m - 1 := by omega
        simp only [h2, dif_pos, h3, h4, if_pos, List.getElem_cons_zero]
      · have h3 : i + l.length ≠ m - 1 := by omega
        rw [dif_neg h2, if_neg h3]; rfl

/-- `seq(Permute(T, v), i) = seq(v, T[i])` (rule R11). -/
theorem seq_permute {m n : Nat} (t : Vector Nat m) (v : BitVec n) (i : Nat) (h : i < m) :
    seq (permute t v) i = seq v t[i] := by
  have hl : t.toList.length = m := by simp
  rw [permute, seq_fold v t.toList 0 i h (by omega), dif_pos (by omega)]
  congr 1
  simp

theorem seq_not {n : Nat} (v : BitVec n) (i : Nat) (h : i < n) : seq (~~~v) i = !seq v i := by
  simp [seq, h]

/-- A permutation whose indices stay inside its source commutes with complement. -/
theorem permute_not {m n : Nat} (t : Vector Nat m) (v : BitVec n) (ht : ∀ i : Fin m, t[i] < n) :
    permute t (~~~v) = ~~~permute t v :=
  seq_ext fun i h => by
    have hi : t[i] < n := ht ⟨i, h⟩
    rw [seq_permute _ _ _ h, seq_not _ _ h, seq_permute _ _ _ h, seq_not _ _ hi]

theorem permIP_not (v : Block) : permIP (~~~v) = ~~~permIP v := permute_not _ _ (by decide)
theorem permFP_not (v : Block) : permFP (~~~v) = ~~~permFP v := permute_not _ _ (by decide)
theorem permE_not (v : Half) : permE (~~~v) = ~~~permE v := permute_not _ _ (by decide)
theorem permP_not (v : Half) : permP (~~~v) = ~~~permP v := permute_not _ _ (by decide)
theorem permPC1_not (v : Block) : permPC1 (~~~v) = ~~~permPC1 v := permute_not _ _ (by decide)
theorem permPC2_not (v : BitVec 56) : permPC2 (~~~v) = ~~~permPC2 v := permute_not _ _ (by decide)

end Sys2Proof.Machine
end

