-- ==== Sys2Proof/Tests/Slice0.lean ====
section
/-!
SUPPORT. Tests, each with a value from the spec (95_test_vectors.md unless another source is named), and, for every statement
of Obligations.lean that has hypotheses, a witness that meets them together.
-/
namespace Sys2Proof.Tests
open Sys2Proof.Machine

/-! ### Well-formedness: the smoke test (rules R70, R73) -/

theorem test_raw_op_four_refused : decodeRaw ⟨4, 0⟩ = .error .opTooWide := by decide
theorem test_raw_data_65_bits_refused : decodeRaw ⟨1, 2 ^ 64⟩ = .error .dataTooWide := by decide
theorem test_raw_op_four_ill_formed : RawCommand.wellFormed ⟨4, 0⟩ = false := by decide
theorem test_raw_data_65_bits_ill_formed : RawCommand.wellFormed ⟨1, 2 ^ 64⟩ = false := by decide
theorem test_raw_largest_word_accepted : decodeRaw ⟨3, 2 ^ 64 - 1⟩ = .ok (.rsvd (BitVec.allOnes 64)) := by decide
theorem test_67_bit_number_refused : decodeNat (2 ^ 66) = .error .widerThanCommandWord := by decide
theorem test_largest_66_bit_number_decoded : decodeNat (2 ^ 66 - 1) = .ok (.rsvd (BitVec.allOnes 64)) := by decide

/-! ### Decoding: one word written out for each row of the opcode map (rules R70, R71; the words of programs P1 and P2) -/

theorem test_decode_key_word : decode 0b000001001100110100010101110111100110011011101111001101111111110001#66 =
    .key 0x133457799BBCDFF1#64 := by decide
theorem test_decode_enc_word : decode 0b010000000100100011010001010110011110001001101010111100110111101111#66 =
    .enc 0x0123456789ABCDEF#64 := by decide
theorem test_decode_dec_word : decode 0b101000010111101000000100110101010000001111000010101011010000000101#66 =
    .dec 0x85E813540F0AB405#64 := by decide
theorem test_decode_rsvd_word : decode 0b110001001000110100010101100111100000010010001101000101011001111000#66 =
    .rsvd 0x1234567812345678#64 := by decide
theorem test_encode_dec_word : encode (.dec 0x85E813540F0AB405#64) = 0x285E813540F0AB405#66 := by decide
theorem test_table_word_enc : decodeTableWord 66 0x10123456789ABCDEF = some (.enc 0x0123456789ABCDEF#64) := by decide

/-! ### Permutations and S-boxes (V-P1 to V-P7b, V-S1 to V-S9, V-F1, V-F3) -/

theorem test_ip : permIP 0x0123456789ABCDEF#64 = 0xCC00CCFFF0AAF0AA#64 := by decide +kernel
theorem test_fp : permFP 0xCC00CCFFF0AAF0AA#64 = 0x0123456789ABCDEF#64 := by decide +kernel
theorem test_e_last_bit : permE 0x00000001#32 = 0x800000000002#48 := by decide +kernel
theorem test_e_both_ends : permE 0x80000001#32 = 0xC00000000003#48 := by decide +kernel
theorem test_p_first_bit : permP 0x80000000#32 = 0x00800000#32 := by decide +kernel
theorem test_p_last_bit : permP 0x00000001#32 = 0x00000800#32 := by decide +kernel
theorem test_p_mixed : permP 0xEFA72C4D#32 = 0xD8D8DBBC#32 := by decide +kernel
theorem test_pc1 : permPC1 0x133457799BBCDFF1#64 = 0xF0CCAAF556678F#56 := by decide +kernel
theorem test_pc1_parity_dropped : permPC1 0x0101010101010101#64 = 0#56 := by decide +kernel
theorem test_pc2_all_ones : permPC2 0xFFFFFFFFFFFFFF#56 = 0xFFFFFFFFFFFF#48 := by decide +kernel
theorem test_pc2_first_bit : permPC2 0x80000000000000#56 = 0x080000000000#48 := by decide +kernel

/-- The columns of the S-box vectors: lane values 0x00, 0x01, 0x20, 0x21, 0x3E, 0x3F, 0x1B. -/
def laneCorners : List (BitVec 6) := [0x00, 0x01, 0x20, 0x21, 0x3E, 0x3F, 0x1B]

theorem test_sbox_corners :
    [sbox1, sbox2, sbox3, sbox4, sbox5, sbox6, sbox7, sbox8].map (fun box => laneCorners.map (sboxLookup box)) =
      [[14, 0, 4, 15, 0, 13, 5], [15, 3, 0, 13, 15, 9, 9], [10, 13, 13, 1, 7, 12, 11], [7, 13, 10, 3, 4, 14, 10],
       [2, 14, 4, 11, 14, 3, 9], [12, 10, 9, 4, 6, 13, 11], [4, 13, 1, 6, 2, 12, 15], [13, 1, 7, 2, 8, 11, 14]] := by decide +kernel
theorem test_lanes : (List.range 8).map (lane 0x6117BA866527#48) = [0x18, 0x11, 0x1E, 0x3A, 0x21, 0x26, 0x14, 0x27] := by decide +kernel
theorem test_sboxes : sBoxes 0x6117BA866527#48 = 0x5C82B597#32 := by decide +kernel
theorem test_round : feistelRound 0xCC00CCFF#32 0xF0AAF0AA#32 0x1B02EFFC7072#48 = (0xF0AAF0AA#32, 0xEF4A6544#32) := by decide +kernel
theorem test_f_complement : roundF 0x0F550F55#32 0xE4FD10038F8D#48 = 0x234AA9BB#32 := by decide +kernel

/-! ### The pure cipher (KAT1, KAT2, V-E4, V-E10, V-K2) -/

theorem test_schedule_ends : (schedule 0x133457799BBCDFF1#64)[0] = 0x1B02EFFC7072#48 ∧
    (schedule 0x133457799BBCDFF1#64)[15] = 0xCB3D8B0E17F5#48 := by decide +kernel
theorem test_kat1 : encryptBlock (schedule 0x133457799BBCDFF1#64) 0x0123456789ABCDEF#64 = 0x85E813540F0AB405#64 := by
  decide +kernel
theorem test_kat2_decrypt : decryptBlock (schedule 0x0E329232EA6D0D73#64) 0#64 = 0x8787878787878787#64 := by decide +kernel
theorem test_all_ones : encryptBlock (schedule 0xFFFFFFFFFFFFFFFF#64) 0xFFFFFFFFFFFFFFFF#64 = 0x7359B2163E4EDC58#64 := by
  decide +kernel
theorem test_decrypt_a_plaintext : decryptBlock (schedule 0x133457799BBCDFF1#64) 0x0123456789ABCDEF#64 =
    0xEE0F7C12E0B09338#64 := by decide +kernel

/-! ### One step on a small state -/

/-- A field of the next state of an outcome. -/
def nextField {α : Type} (f : State → α) : Host.Outcome State Fault Refusal → Option α
  | .next s => some (f s)
  | .fault _ => none
  | .refused _ => none

/-- An idle core with `key_valid` = 1 and a result in `dout`. -/
def keyedState : State := { State.reset with keyValid := true, dout := 0x85E813540F0AB405#64, doutValid := true }

/-- A core in KEYGEN with counter `c`, and `C` and `D` as KEY 0x133457799BBCDFF1 leaves them. -/
def keygenState (c : BitVec 4) : State := { State.reset with st := .keygen, ctr := c, C := 0xF0CCAAF, D := 0x556678F }

/-- A core in ROUND with counter `c` and mode `m`, and the halves of V-E1. -/
def roundState (c : BitVec 4) (m : Mode) : State :=
  { State.reset with
    st := .round, ctr := c, mode := m, keyValid := true, L := 0xCC00CCFF, R := 0xF0AAF0AA
    KS := (Vector.replicate 16 0).set 0 0x1B02EFFC7072#48 }

/-- `s` with one edge on which a command is offered. -/
def offered (i : Instr) (s : State) : State := { s with inputs := [.edge (Pins.offer i)] }

theorem test_key_loads_halves : nextField (fun t => (t.C, t.D, t.st)) (step (offered (.key 0x133457799BBCDFF1#64) keyedState)) =
    some (0xF0CCAAF#28, 0x556678F#28, .keygen) := by decide +kernel
theorem test_key_clears_key_valid_and_err : nextField (fun t => (t.keyValid, t.err, t.doutValid))
    (step (offered (.key 0) { keyedState with err := 2 })) = some (false, 0#2, true) := by decide
theorem test_keygen_first_step : nextField (fun t => (t.C, t.D, t.KS[0], t.ctr)) (step (keygenState 0)) =
    some (0xE19955F#28, 0xAACCF1E#28, 0x1B02EFFC7072#48, 1#4) := by decide +kernel
theorem test_keygen_last_step : nextField (fun t => (t.keyValid, t.ctr, t.st)) (step (keygenState 15)) =
    some (true, 0#4, .idle) := by decide
theorem test_enc_loads_halves : nextField (fun t => (t.L, t.R, t.mode)) (step (offered (.enc 0x0123456789ABCDEF#64) keyedState)) =
    some (0xCC00CCFF#32, 0xF0AAF0AA#32, .encrypt) := by decide +kernel
theorem test_enc_without_key : nextField (fun t => (t.err, t.st, t.doutValid))
    (step (offered (.enc 0x0123456789ABCDEF#64) State.reset)) = some (1#2, .idle, false) := by decide
theorem test_dec_loads_halves : nextField (fun t => (t.L, t.R, t.mode)) (step (offered (.dec 0x85E813540F0AB405#64) keyedState)) =
    some (0x0A4CD995#32, 0x43423234#32, .decrypt) := by decide +kernel
theorem test_dec_without_key : nextField (fun t => (t.err, t.st)) (step (offered (.dec 0) State.reset)) =
    some (1#2, .idle) := by decide
theorem test_rsvd_after_reset : step (offered (.rsvd 0) State.reset) = .next { State.reset with err := 2 } := rfl
theorem test_rsvd_keeps_result : step (offered (.rsvd 0xFFFFFFFFFFFFFFFF#64) keyedState) =
    .next { keyedState with err := 2 } := rfl
theorem test_round_first_step : nextField (fun t => (t.L, t.R, t.ctr)) (step (roundState 0 .encrypt)) =
    some (0xF0AAF0AA#32, 0xEF4A6544#32, 1#4) := by decide +kernel
/-- In DEC the step with `ctr` = 15 reads `KS[0]`, and `dout` is FP of the swapped halves (rules R174, R177). -/
theorem test_round_last_step_of_dec : nextField (fun t => (t.dout, t.doutValid, t.st)) (step (roundState 15 .decrypt)) =
    some (permFP 0xEF4A6544F0AAF0AA#64, true, .idle) := by decide +kernel

/-! ### Reset, power-up and the inputs (rules R38, R76, R235, R263) -/

theorem test_reset_wins : nextField (fun t => (t.st, t.dout, t.keyValid))
    (step { roundState 15 .encrypt with inputs := [.edge ⟨true, true, 1, 0⟩] }) = some (.idle, 0#64, false) := by decide
theorem test_command_before_reset_refused : step (offered (.key 0) { State.reset with resetSeen := false }) =
    .refused .commandBeforeReset := rfl
theorem test_read_before_reset_refused : runLine .read { State.reset with resetSeen := false } = .refused .readBeforeReset := rfl
theorem test_command_waits_while_busy : nextField (fun t => (t.st, t.err)) (step (offered (.rsvd 0) (keygenState 3))) =
    some (.keygen, 0#2) := by decide
theorem test_status_word : statusWord false { keyedState with err := 2 } = 0b00010111#8 := by decide
theorem test_fetch_word : nextField (fun t => t.err) (step (State.reset.withFetchWord 66 0x30000000000000000)) = some 2#2 := by
  decide
theorem test_withdrawn_offer_kept : holdsOffer { keygenState 3 with
    inputs := [.edge (Pins.offer (.rsvd 0)), .edge Pins.quiet] } = true := by decide
theorem test_changed_offer_breaks_duty : holdsOffer { keygenState 3 with
    inputs := [.edge (Pins.offer (.rsvd 0)), .edge (Pins.offer (.rsvd 1))] } = false := by decide

theorem test_offer_changed_after_reset_edge_breaks_duty : holdsOffer { keyedState with
    inputs := [.edge ⟨true, true, 1, 5⟩, .edge (Pins.offer (.enc 6))] } = false := by decide
theorem test_offer_changed_across_stopped_clock_breaks_duty : holdsOffer { keygenState 3 with
    inputs := [.edge (Pins.offer (.enc 5)), .clkStopped, .clkStopped, .edge (Pins.offer (.enc 6))] } = false := by decide
theorem test_offer_held_across_stopped_clock : holdsOffer { keygenState 3 with
    inputs := [.edge (Pins.offer (.enc 5)), .clkStopped, .edge (Pins.offer (.enc 5))] } = true := by decide
theorem test_block_before_key_breaks_duty : keyBeforeBlock (offered (.enc 5) State.reset) = false := by decide
theorem test_block_during_keygen_keeps_duty : keyBeforeBlock (offered (.enc 5) (keygenState 3)) = true := by decide
theorem test_offer_at_first_reset_edge_breaks_duty : resetsFirst { State.reset with
    resetSeen := false, inputs := [.edge ⟨true, true, 0, 0⟩] } = false := by decide
theorem test_wait_before_reset_refused : runLine .wait { State.reset with resetSeen := false } = .refused .readBeforeReset := rfl

/-! ### The host driver (W2, V-H1 to V-H6) and the script form (rules R75, R76) -/

theorem test_normalize_short : normalizeKey [0x31, 0x32, 0x33, 0x34] = [0x31, 0x32, 0x33, 0x34, 0, 0, 0, 0] := by decide
theorem test_pad_one_byte : pad [0x78] = [0x78, 7, 7, 7, 7, 7, 7, 7] := by decide
theorem test_pad_aligned : pad [0x41, 0x42, 0x43, 0x44, 0x45, 0x46, 0x47, 0x48] =
    [0x41, 0x42, 0x43, 0x44, 0x45, 0x46, 0x47, 0x48, 8, 8, 8, 8, 8, 8, 8, 8] := by decide
theorem test_unpad_zero : unpad [0x41, 0x42, 0x43, 0x44, 0x45, 0x46, 0x47, 0] = .error .corruptedPadding := by decide
theorem test_unpad_nine : unpad [0x41, 0x42, 0x43, 0x44, 0x45, 0x46, 0x47, 9] = .error .corruptedPadding := by decide
theorem test_unpad_eight : unpad [0x41, 0x42, 0x43, 0x44, 0x45, 0x46, 0x47, 8] = .ok [] := by decide
theorem test_encrypt_empty_buffer : encryptBuffer [] [0x31, 0x32, 0x33, 0x34, 0x35, 0x36, 0x37, 0x38] =
    [0xFE, 0xB9, 0x59, 0xB7, 0xD4, 0x64, 0x2F, 0xCB] := by decide +kernel
theorem test_decrypt_unaligned : driverDecrypt [1, 2, 3, 4, 5, 6, 7] [] State.reset =
    .next (State.reset, .error .notBlockAligned) := rfl
theorem test_decrypt_unaligned_without_key : driverDecryptLoaded [1, 2, 3, 4, 5, 6, 7] keyedState =
    .next (keyedState, .error .notBlockAligned) := rfl
/-- The liberty of rule R209: the key unchanged and `key_valid` = 1; each condition alone is not enough. -/
theorem test_may_skip_key : maySkipKey (some 0x3132333435363738#64) [0x31, 0x32, 0x33, 0x34, 0x35, 0x36, 0x37, 0x38] keyedState = true ∧
    maySkipKey (some 0x3132333435363738#64) [0x31, 0x32, 0x33, 0x34, 0x35, 0x36, 0x37, 0x38] State.reset = false ∧
    maySkipKey (some 0x3132333435363739#64) [0x31, 0x32, 0x33, 0x34, 0x35, 0x36, 0x37, 0x38] keyedState = false ∧
    maySkipKey none [0x31, 0x32, 0x33, 0x34, 0x35, 0x36, 0x37, 0x38] keyedState = false := by decide
theorem test_key_valid_read_before_reset_refused : driverDecryptReusing none [] [] { State.reset with resetSeen := false } =
    .refused .readBeforeReset := rfl
theorem test_parse_keystr :
    parseLine ['K', 'E', 'Y', 'S', 'T', 'R', ' ', '"', '1', '2', '3', '4', '5', '6', '7', '8', '"'] =
      some (.keystr [0x31, 0x32, 0x33, 0x34, 0x35, 0x36, 0x37, 0x38]) ∧
    keystrCommand [0x31, 0x32, 0x33, 0x34, 0x35, 0x36, 0x37, 0x38] = .key 0x3132333435363738#64 := by decide
theorem test_parse_short_operand_refused : parseLine ['E', 'N', 'C', ' ', '0', 'x', '1', '2'] = none := by decide

/-! ### Witnesses: for each statement with hypotheses, values that meet them together, clause by clause -/

/-- Sixteen edges on which nothing is offered. -/
def quiet16 : List Pins := List.replicate 16 Pins.quiet

/-- Sixteen edges, the last a reset edge. -/
def resetAtEnd : List Pins := List.replicate 15 Pins.quiet ++ [Pins.reset]

theorem noReset_quiet16 : NoReset quiet16 := by unfold NoReset; decide

/-- `s` with a command offered, then sixteen quiet edges. -/
def thenQuiet (i : Instr) (s : State) : State := { s with inputs := .edge (Pins.offer i) :: (edges quiet16 ++ []) }

/-- A state whose only input is one edge. -/
def atEdge (p : Pins) (s : State) : State := { s with inputs := [.edge p] }

/-- A core before its first reset edge. -/
def unresetState : State := { State.reset with resetSeen := false }

theorem witness_OnlySixtySixBitWordsDecode : (2 ^ 66 - 1 < 2 ^ 66) ∧ (2 ^ 66 ≤ 2 ^ 66) ∧
    RawCommand.wellFormed ⟨4, 0⟩ = false ∧ RawCommand.wellFormed ⟨3, 2 ^ 64⟩ = false := by decide

theorem witness_ParityBitsHaveNoEffect : 0x133457799BBCDFF1#64 ≠ 0x123556789ABDDEF0#64 ∧
    0x133457799BBCDFF1#64 &&& ~~~parityMask = 0x123556789ABDDEF0#64 &&& ~~~parityMask := by decide

/-- The hypotheses of the KEY transaction, from a core with and without a schedule, and of a busy core. -/
theorem witness_KeyStartsSchedule :
    (∀ s ∈ [State.reset, keyedState], CanAccept (thenQuiet (.key 5) s) ∧ Offers (.key 5) (Pins.offer (.key 5)) ∧
      quiet16.length = 16 ∧ NoReset quiet16 ∧
      (thenQuiet (.key 5) s).inputs = .edge (Pins.offer (.key 5)) :: (edges quiet16 ++ [])) ∧
    (keygenState 0).resetSeen = true ∧ (keygenState 0).st ≠ .idle := by
  refine ⟨fun s hs => ?_, by decide⟩
  simp only [List.mem_cons, List.not_mem_nil, or_false] at hs
  rcases hs with rfl | rfl <;>
    exact ⟨⟨rfl, rfl⟩, ⟨rfl, rfl, by decide⟩, rfl, noReset_quiet16, rfl⟩

/-- Both rotation amounts, with an index that wraps and one that does not. -/
theorem witness_RotationsAccumulateAndReturn : ∀ n ∈ [1, 2], (n = 1 ∨ n = 2) ∧ 0 < 28 ∧ 27 < 28 := by decide

theorem witness_KeygenStepWritesOneSubkey : ∀ c ∈ [0#4, 14#4, 15#4],
    (atEdge Pins.quiet (keygenState c)).inputs = .edge Pins.quiet :: [] ∧
    (atEdge Pins.quiet (keygenState c)).resetSeen = true ∧ Pins.quiet.rst = false ∧
    (atEdge Pins.quiet (keygenState c)).st = .keygen ∧ (atEdge Pins.quiet (keygenState c)).ctr = c := by decide

/-- The clause with a reset among the sixteen edges; the other clause is `witness_KeyStartsSchedule`. -/
theorem witness_KeyTransactionLoadsSchedule : CanAccept State.reset ∧ Offers (.key 5) (Pins.offer (.key 5)) ∧
    resetAtEnd.length = 16 ∧ (∃ q ∈ resetAtEnd, q.rst = true) :=
  ⟨⟨rfl, rfl⟩, ⟨rfl, rfl, by decide⟩, rfl, Pins.reset, by decide, rfl⟩

/-- A parity variant of each of the four keys. -/
theorem witness_ScheduleCornerCases :
    0x0101010101010101#64 &&& ~~~parityMask = 0x0000000000000000#64 ∧
    0xFEFEFEFEFEFEFEFE#64 &&& ~~~parityMask = 0xFFFFFFFFFFFFFFFF#64 &&& ~~~parityMask ∧
    0x1E1E1E1E0F0F0F0F#64 &&& ~~~parityMask = 0x1F1F1F1F0E0E0E0E#64 &&& ~~~parityMask ∧
    0xE1E1E1E1F0F0F0F0#64 &&& ~~~parityMask = 0xE0E0E0E0F1F1F1F1#64 &&& ~~~parityMask := by decide

/-- The hypotheses of a block transaction, and both values of `key_valid` and a busy core. -/
theorem witness_EncStartsOrRaisesNokey :
    (CanAccept (thenQuiet (.enc 7) keyedState) ∧ (thenQuiet (.enc 7) keyedState).keyValid = true ∧
      Offers (.enc 7) (Pins.offer (.enc 7)) ∧ quiet16.length = 16 ∧ NoReset quiet16 ∧
      (thenQuiet (.enc 7) keyedState).inputs = .edge (Pins.offer (.enc 7)) :: (edges quiet16 ++ [])) ∧
    State.reset.keyValid = false ∧ (roundState 0 .encrypt).resetSeen = true ∧ (roundState 0 .encrypt).st ≠ .idle :=
  ⟨⟨⟨rfl, rfl⟩, rfl, ⟨rfl, rfl, by decide⟩, rfl, noReset_quiet16, rfl⟩, rfl, rfl, by decide⟩

theorem witness_DecStartsOrRaisesNokey :
    (CanAccept (thenQuiet (.dec 7) keyedState) ∧ (thenQuiet (.dec 7) keyedState).keyValid = true ∧
      Offers (.dec 7) (Pins.offer (.dec 7)) ∧ quiet16.length = 16 ∧ NoReset quiet16 ∧
      (thenQuiet (.dec 7) keyedState).inputs = .edge (Pins.offer (.dec 7)) :: (edges quiet16 ++ [])) ∧
    State.reset.keyValid = false ∧ (roundState 0 .decrypt).resetSeen = true ∧ (roundState 0 .decrypt).st ≠ .idle :=
  ⟨⟨⟨rfl, rfl⟩, rfl, ⟨rfl, rfl, by decide⟩, rfl, noReset_quiet16, rfl⟩, rfl, rfl, by decide⟩

theorem witness_RsvdRaisesIllegal : CanAccept (offered (.rsvd 9) keyedState) ∧ Offers (.rsvd 9) (Pins.offer (.rsvd 9)) ∧
    (offered (.rsvd 9) keyedState).inputs = .edge (Pins.offer (.rsvd 9)) :: [] :=
  ⟨⟨rfl, rfl⟩, ⟨rfl, rfl, by decide⟩, rfl⟩

theorem witness_RoundStepRunsOneRound : ∀ c ∈ [0#4, 14#4, 15#4], ∀ m ∈ [Mode.encrypt, Mode.decrypt],
    (atEdge Pins.quiet (roundState c m)).inputs = .edge Pins.quiet :: [] ∧
    (atEdge Pins.quiet (roundState c m)).resetSeen = true ∧ Pins.quiet.rst = false ∧
    (atEdge Pins.quiet (roundState c m)).st = .round ∧ (atEdge Pins.quiet (roundState c m)).ctr = c ∧
    (atEdge Pins.quiet (roundState c m)).mode = m := by decide

/-- `BlockTransactionComputesCipher`: the two witnesses above, one for each of its clauses. -/
theorem witness_BlockTransactionComputesCipher : CanAccept keyedState ∧ keyedState.keyValid = true ∧
    quiet16.length = 16 ∧ NoReset quiet16 ∧ Offers (.enc 7) (Pins.offer (.enc 7)) ∧ Offers (.dec 7) (Pins.offer (.dec 7)) :=
  ⟨⟨rfl, rfl⟩, rfl, rfl, noReset_quiet16, ⟨rfl, rfl, by decide⟩, ⟨rfl, rfl, by decide⟩⟩

/-- Two cores with the same subkey file and different results in `dout`, offered different blocks. -/
theorem witness_EcbResultDependsOnlyOnBlock :
    let s := thenQuiet (.enc 7) keyedState
    let s' := thenQuiet (.enc 8) { keyedState with dout := 1, mode := .decrypt }
    CanAccept s ∧ CanAccept s' ∧ s.keyValid = true ∧ s'.keyValid = true ∧ s.KS = s'.KS ∧
    Offers (.enc 7) (Pins.offer (.enc 7)) ∧ Offers (.enc 8) (Pins.offer (.enc 8)) ∧ quiet16.length = 16 ∧ NoReset quiet16 ∧
    s.inputs = .edge (Pins.offer (.enc 7)) :: (edges quiet16 ++ []) ∧
    s'.inputs = .edge (Pins.offer (.enc 8)) :: (edges quiet16 ++ []) :=
  ⟨⟨rfl, rfl⟩, ⟨rfl, rfl⟩, rfl, rfl, rfl, ⟨rfl, rfl, by decide⟩, ⟨rfl, rfl, by decide⟩, rfl, noReset_quiet16, rfl, rfl⟩

theorem witness_OnlyResetStopsABlock : (roundState 5 .encrypt).resetSeen = true ∧ (roundState 5 .encrypt).st = .round ∧
    Pins.quiet.rst = false ∧ (Pins.offer (.rsvd 0)).rst = false ∧ Pins.reset.rst = true := by decide

/-- An accepted command; one offered to a busy core; two different ports with nothing offered. -/
theorem witness_StepExecutesAcceptedCommand :
    (let s := offered (.dec 3) State.reset
     let p := Pins.offer (.dec 3)
     s.inputs = .edge p :: [] ∧ s.resetSeen = true ∧ p.rst = false ∧ p.cmdValid = true ∧ cmdReady p.rst s = true) ∧
    (let s := offered (.dec 3) (keygenState 2)
     let p := Pins.offer (.dec 3)
     s.inputs = .edge p :: [] ∧ s.resetSeen = true ∧ ¬(p.rst = false ∧ p.cmdValid = true ∧ cmdReady p.rst s = true) ∧
       s.st ≠ .idle) ∧
    (let s := atEdge Pins.quiet State.reset
     let q : Pins := ⟨false, false, 3, 7⟩
     s.inputs = .edge Pins.quiet :: [] ∧ s.resetSeen = true ∧ Pins.quiet.rst = false ∧ q.rst = false ∧
       Pins.quiet.cmdValid = false ∧ q.cmdValid = false) := by decide

/-- A command offered during a reset edge. -/
theorem witness_CmdReadyIsIdleAndNotReset :
    (atEdge ⟨true, true, 1, 0⟩ State.reset).inputs = .edge ⟨true, true, 1, 0⟩ :: [] := by decide

theorem witness_IdleAndStoppedClockKeepState :
    (let s := atEdge Pins.quiet keyedState
     s.inputs = .edge Pins.quiet :: [] ∧ s.resetSeen = true ∧ Pins.quiet.rst = false ∧ s.st = .idle ∧
       Pins.quiet.cmdValid = false) ∧
    { keyedState with inputs := [HostEvent.clkStopped] }.inputs = .clkStopped :: [] ∧
    { keyedState with inputs := [HostEvent.powerCycle] }.inputs = .powerCycle :: [] := by decide

/-- Two reset edges, with a command offered during the second, of a core that was never reset. -/
theorem witness_ResetEdgesTakeResetValues :
    let ps : List Pins := [Pins.reset, ⟨true, true, 1, 0⟩]
    ps ≠ [] ∧ (∀ p ∈ ps, p.rst = true) ∧ { unresetState with inputs := edges ps ++ [] }.inputs = edges ps ++ [] := by decide

theorem witness_ResetLeavesCoreReady :
    { unresetState with inputs := [.edge Pins.reset, .edge (Pins.offer (.key 0))] }.inputs =
      .edge Pins.reset :: (.edge (Pins.offer (.key 0)) :: []) ∧
    Pins.reset.rst = true ∧ (Pins.offer (.key 0)).rst = false ∧ (Pins.offer (.key 0)).cmdValid = true := by decide

/-- The three clauses: a command offered, nothing offered, a reset edge. -/
theorem witness_NothingBeforeFirstReset : ∀ p ∈ [Pins.offer (.key 0), Pins.quiet, Pins.reset],
    (atEdge p unresetState).inputs = .edge p :: [] ∧ (atEdge p unresetState).resetSeen = false := by decide

/-- A core that has been reset, and one that refuses. -/
theorem witness_OnlyAnUnresetCoreStops : State.reset.resetSeen = true ∧
    step (offered (.enc 0) unresetState) = .refused .commandBeforeReset := ⟨rfl, rfl⟩

/-- The invariant holds of a core in KEYGEN, which takes a step. -/
theorem witness_CoreInvariantKeptByStep : CoreInv (atEdge Pins.quiet (keygenState 0)) ∧
    ∃ t, step (atEdge Pins.quiet (keygenState 0)) = .next t := by
  refine ⟨fun _ => ⟨by unfold ErrLegal; decide, (fun h => nomatch h), fun _ => ⟨rfl, rfl, 0x133457799BBCDFF1#64, ?_, ?_,
    fun j h => absurd h (Nat.not_lt_zero _)⟩, (fun h => nomatch h), (fun h => nomatch h)⟩,
    _, step_keygen _ Pins.quiet [] rfl rfl rfl rfl⟩ <;> decide +kernel

/-- A core in ROUND over the complete schedule of a key. -/
def scheduledRound : State := atEdge Pins.quiet { roundState 0 .encrypt with KS := schedule 0x133457799BBCDFF1#64 }

/-- The invariant holds of a core in ROUND, which takes a step. -/
theorem witness_CoreInvariantKeptByStep_round : CoreInv scheduledRound ∧ ∃ t, step scheduledRound = .next t := by
  refine ⟨fun _ => ⟨by unfold ErrLegal; decide, (fun h => nomatch h), (fun h => nomatch h),
    fun _ => ⟨rfl, rfl, rfl, 0x0123456789ABCDEF#64, ?_⟩, fun _ => ⟨_, rfl⟩⟩, _, step_round _ Pins.quiet [] rfl rfl rfl rfl⟩
  have h : (0xCC00CCFF#32, 0xF0AAF0AA#32) = (initialL 0x0123456789ABCDEF#64, initialR 0x0123456789ABCDEF#64) := by
    decide +kernel
  exact h

/-- The edges the write statements tell apart, over one core each: reset, last ROUND edge, earlier ROUND edge, KEYGEN edges,
idle, and the acceptance of each command with and without a schedule. -/
def edgeCases : List (Pins × State) :=
  [(Pins.reset, roundState 15 .encrypt), (Pins.quiet, roundState 15 .encrypt), (Pins.quiet, roundState 14 .decrypt),
   (Pins.quiet, keygenState 14), (Pins.quiet, keygenState 15), (Pins.quiet, keyedState),
   (Pins.offer (.key 1), keyedState), (Pins.offer (.enc 1), keyedState), (Pins.offer (.dec 1), keyedState),
   (Pins.offer (.rsvd 1), keyedState), (Pins.offer (.enc 1), State.reset), (Pins.offer (.dec 1), State.reset)]

/-- `ErrWrittenAtAcceptanceAndReset`, `DoutValidWrites`, `DoutAndHalvesWrites`, `KeyStateAndModeWrites`: their common hypotheses. -/
theorem witness_edge_writes : ∀ c ∈ edgeCases,
    (atEdge c.1 c.2).inputs = .edge c.1 :: [] ∧ (atEdge c.1 c.2).resetSeen = true := by decide

/-- The premises of their clauses, each met by one of the cases. -/
theorem witness_edge_writes_clauses :
    (edgeCases.map fun c => (c.1.rst, accepts c.1 c.2, c.2.st, decide (c.2.ctr = 15), c.2.keyValid)) =
      [(true, false, .round, true, true), (false, false, .round, true, true), (false, false, .round, false, true),
       (false, false, .keygen, false, false), (false, false, .keygen, true, false), (false, false, .idle, false, true),
       (false, true, .idle, false, true), (false, true, .idle, false, true), (false, true, .idle, false, true),
       (false, true, .idle, false, true), (false, true, .idle, false, false), (false, true, .idle, false, false)] := by decide

/-- The premises of the frame's clauses: no KEY; nothing that starts a block; nothing that starts. -/
theorem witness_CommandFrame :
    (∀ b, Instr.enc 1 ≠ .key b) ∧ (∀ b, Instr.rsvd 1 ≠ .key b) ∧
    ¬(State.reset.keyValid = true ∧ ∃ b, Instr.enc 1 = .enc b ∨ Instr.enc 1 = .dec b) ∧
    ¬Starts (.enc 1) State.reset ∧ ¬Starts (.rsvd 1) keyedState :=
  ⟨(fun _ h => nomatch h), (fun _ h => nomatch h), (fun h => nomatch h.1), (fun h => nomatch h), fun h => h⟩

/-- Every command that starts, and the ones that do not. -/
theorem witness_StartedCommandOccupiesSeventeenEdges :
    (∀ i ∈ [Instr.key 1, .enc 1, .dec 1, .rsvd 1], CanAccept (thenQuiet i keyedState) ∧ Offers i (Pins.offer i) ∧
      quiet16.length = 16 ∧ NoReset quiet16 ∧ (thenQuiet i keyedState).inputs = .edge (Pins.offer i) :: (edges quiet16 ++ [])) ∧
    Starts (.key 1) keyedState ∧ Starts (.enc 1) keyedState ∧ Starts (.dec 1) keyedState ∧
    ¬Starts (.rsvd 1) keyedState ∧ ¬Starts (.enc 1) State.reset ∧ ¬Starts (.dec 1) State.reset := by
  refine ⟨fun i hi => ⟨⟨rfl, rfl⟩, ?_, rfl, noReset_quiet16, rfl⟩, trivial, rfl, rfl, fun h => h, (fun h => nomatch h), (fun h => nomatch h)⟩
  simp only [List.mem_cons, List.not_mem_nil, or_false] at hi
  rcases hi with rfl | rfl | rfl | rfl <;> exact ⟨rfl, rfl, by decide⟩

theorem witness_ReadyWithinSixteenEdges :
    let s := { keygenState 0 with inputs := edges quiet16 ++ [] }
    s.resetSeen = true ∧ quiet16.length = 16 ∧ NoReset quiet16 ∧ (∀ p ∈ quiet16, p.cmdValid = false) ∧
    s.inputs = edges quiet16 ++ [] :=
  ⟨rfl, rfl, noReset_quiet16, by decide, rfl⟩

/-- Two cores that differ in every unspecified element, with a reset edge and a command still to come. -/
theorem witness_UnspecifiedResetValuesUnobservable :
    let s := { State.reset with inputs := [.edge (Pins.offer (.key 0)), .edge Pins.reset] }
    let t := { s with mode := .decrypt, C := 1, D := 1, KS := Vector.replicate 16 1, L := 1, R := 1, ctr := 3, freeIx := 5 }
    s.resetSeen = true ∧ t.resetSeen = true ∧ s.st = .idle ∧ t.st = .idle ∧ s.keyValid = false ∧ t.keyValid = false ∧
    s.dout = t.dout ∧ s.doutValid = t.doutValid ∧ s.err = t.err ∧ s.inputs = t.inputs ∧ KeepsPower s.inputs ∧
    Sys2Proof.core.run 0 s = .next s := by
  refine ⟨rfl, rfl, rfl, rfl, rfl, rfl, rfl, rfl, rfl, rfl, ?_, rfl⟩
  unfold KeepsPower; decide

theorem witness_KeyHalvesUnobservable : keyedState.st ≠ .keygen ∧ (roundState 3 .encrypt).st ≠ .keygen ∧
    ∃ t, Sys2Proof.core.run 0 (roundState 3 .encrypt) = .next t := ⟨by decide, by decide, _, rfl⟩

/-- A boot from a core that was never reset. -/
theorem witness_BootOrderEncrypts :
    let p := Pins.offer (.key 5)
    let q := Pins.offer (.enc 7)
    let s := { unresetState with
      inputs := .edge Pins.reset :: .edge p :: (edges quiet16 ++ HostEvent.edge q :: (edges quiet16 ++ [])) }
    Pins.reset.rst = true ∧ Offers (.key 5) p ∧ Offers (.enc 7) q ∧ quiet16.length = 16 ∧ NoReset quiet16 ∧
    s.inputs = .edge Pins.reset :: .edge p :: (edges quiet16 ++ HostEvent.edge q :: (edges quiet16 ++ [])) :=
  ⟨rfl, ⟨rfl, rfl, by decide⟩, ⟨rfl, rfl, by decide⟩, rfl, noReset_quiet16, rfl⟩

theorem witness_FetchWordRunsNext : 66 ≤ 66 ∧ 66 ≤ 72 ∧ 0x3FFFFFFFFFFFFFFFF < 2 ^ 66 := by decide

theorem witness_OperandBytesAreBigEndian : ([0x31, 0x32, 0x33, 0x34, 0x35, 0x36, 0x37, 0x38] : List Byte).length = 8 := by
  decide

/-- Key strings of 7, 8 and 9 bytes. -/
theorem witness_KeyNormalization : (List.replicate 7 0x31#8).length < 8 ∧ 8 ≤ (List.replicate 8 0x31#8).length ∧
    8 ≤ (List.replicate 9 0x31#8).length := by decide

/-- An aligned buffer and one that is not, with the least greater multiple of 8. -/
theorem witness_PadAppendsItsCount : ([] : List Byte).length % 8 = 0 ∧ ([] : List Byte).length < 8 ∧ 8 % 8 = 0 ∧
    [0x78#8].length % 8 ≠ 0 ∧ [0x78#8].length < 8 := by decide

/-- Trailing bytes 0, 1, 8, 9 and 255 of an 8-byte buffer. -/
theorem witness_UnpadReadsTrailingByte : (∀ r : Byte, (List.replicate 7 0#8 ++ [r]).length % 8 = 0) ∧
    (0#8).toNat = 0 ∧ 8 < (9#8).toNat ∧ 8 < (255#8).toNat ∧ 1 ≤ (1#8).toNat ∧ 1 ≤ (8#8).toNat ∧ (8#8).toNat ≤ 8 :=
  ⟨fun r => by simp, by decide⟩

/-- `DriverEncryptComputesBuffer`, `DriverDecryptComputesBuffer`, `UnalignedCiphertextRejected`, `BufferRoundTrip`: cores that
have been reset, busy or not; buffers of 0 and 8 bytes are aligned, of 7 are not. -/
theorem witness_driver : State.reset.resetSeen = true ∧ (keygenState 0).resetSeen = true ∧ (roundState 0 .decrypt).resetSeen = true ∧
    ([] : List Byte).length % 8 = 0 ∧ (List.replicate 8 0#8).length % 8 = 0 ∧ (List.replicate 7 0#8).length % 8 ≠ 0 := by decide

/-- A core in ROUND, with a reset edge still to come. -/
theorem witness_KeyHalvesUnobservableWhateverIsDrawn :
    let s := atEdge Pins.reset (roundState 3 .encrypt)
    s.resetSeen = true ∧ s.st ≠ .keygen ∧ KeepsPower s.inputs ∧ Sys2Proof.core.run 0 s = .next s :=
  ⟨rfl, by decide, by unfold KeepsPower; decide, rfl⟩

/-- The digits of the spec's block, the last three in lower case. -/
theorem witness_DigitsOfEitherCaseAndWordsRead :
    List.Forall₂ (fun printed written => written = printed ∨ written = printed.toLower) (hexDigits 0x0123456789ABCDEF#64)
      ['0', '1', '2', '3', '4', '5', '6', '7', '8', '9', 'A', 'B', 'C', 'd', 'e', 'f'] := by decide

theorem witness_ScriptsStartWithReset : unresetState.resetSeen = false := rfl

/-- A busy core whose host keeps its duties for two steps; an idle core at a reset edge with an offer that is held, and then
accepted. -/
theorem witness_HostContractPreventsHazards :
    (let s := { keygenState 3 with inputs := [.edge (Pins.offer (.enc 5)), .edge (Pins.offer (.enc 5))] }
     s.resetSeen = true ∧ s.err ≠ 1 ∧ HostEvent.powerCycle ∉ s.inputs ∧ keepsContract 2 s = true) ∧
    (let p : Pins := ⟨true, true, 0, 5⟩
     let s := { keyedState with inputs := [.edge p, .edge (Pins.offer (.key 5))] }
     s.inputs = .edge p :: [.edge (Pins.offer (.key 5))] ∧ p.cmdValid = true ∧ accepts p s = false ∧ holdsOffer s = true ∧
       nextField stepKind (step s) = some (.command (.key 5))) := by decide

/-- A core that holds the remembered key's schedule and skips KEY, and one just reset that does not. -/
theorem witness_SkippingKeyGivesSameBuffers :
    (let s := { keyedState with KS := schedule (keyOperand []) }
     s.resetSeen = true ∧ CoreInv s ∧
       (∀ key, some (keyOperand []) = some key → s.keyValid = true → s.KS = schedule key) ∧
       maySkipKey (some (keyOperand [])) [] s = true) ∧
    (State.reset.resetSeen = true ∧ CoreInv State.reset ∧
       (∀ key, (none : Option Block) = some key → State.reset.keyValid = true → State.reset.KS = schedule key) ∧
       maySkipKey none [] State.reset = false) ∧
    ([] : List Byte).length % 8 = 0 ∧ [0x78#8].length % 8 ≠ 0 := by
  refine ⟨⟨rfl, fun _ => ⟨?_, fun _ => rfl, (fun h => nomatch h), (fun h => nomatch h), fun _ => ⟨_, rfl⟩⟩,
    fun key h _ => congrArg schedule (Option.some.inj h), (maySkipKey_eq_true _ _ _).2 ⟨rfl, rfl⟩⟩,
    ⟨rfl, fun _ => ⟨?_, fun _ => rfl, (fun h => nomatch h), (fun h => nomatch h), (fun h => nomatch h)⟩,
      (fun _ h => nomatch h), by decide⟩, by decide⟩ <;> unfold ErrLegal <;> decide

theorem witness_BufferBoundaries : (List.replicate 13 0x68#8).length = 13 := by decide

end Sys2Proof.Tests
end

section
/-!
SUPPORT. Rules of the state family (10_state.md) that several proofs share: which state a kind of step stands for, what an
acceptance edge writes to each field, and what a rising edge of a core that has been reset can do.
-/
namespace Sys2Proof.Machine

/-! ### The kinds of step -/

/-- What the choice of a kind of step says of the state it was chosen in (rules R27, R133, R176, R235, R244, R263). -/
def KindFits (s : State) : StepKind → Prop
  | .command i => ∃ p, currentEvent s = .edge p ∧ accepts p s = true ∧ s.resetSeen = true ∧ decode p.word = i
  | .other .powerCycle => currentEvent s = .powerCycle
  | .other .clkStopped => currentEvent s = .clkStopped
  | .other .reset => ∃ p, currentEvent s = .edge p ∧ p.rst = true
  | .other .unreset => s.resetSeen = false
  | .other .offeredUnreset => s.resetSeen = false
  | .other .idle => s.resetSeen = true ∧ s.st = .idle
  | .other .keygen => s.resetSeen = true ∧ s.st = .keygen
  | .other .round => s.resetSeen = true ∧ s.st = .round

theorem stepKind_fits (s : State) : KindFits s (stepKind s) := by
  unfold stepKind
  cases he : currentEvent s with
  | powerCycle => exact he
  | clkStopped => exact he
  | edge p =>
    simp only
    cases hr : p.rst with
    | true => rw [edgeKind_reset p s hr]; exact ⟨p, he, hr⟩
    | false =>
      cases hs : s.resetSeen with
      | false => cases hv : p.cmdValid <;> simp [edgeKind, hr, hs, hv, KindFits]
      | true =>
        rw [edgeKind_running p s hr hs]
        obtain ⟨_, ha, hk⟩ | ⟨hst, _, hk⟩ | ⟨hst, hk⟩ | ⟨hst, hk⟩ := runningEdgeKind_cases p s <;> rw [hk]
        · exact ⟨p, he, ha, hs, rfl⟩
        · exact ⟨hs, hst⟩
        · exact ⟨hs, hst⟩
        · exact ⟨hs, hst⟩

theorem currentEvent_cons (s : State) (e : HostEvent) (rest : List HostEvent) (h : s.inputs = e :: rest) :
    currentEvent s = e := by
  simp [currentEvent, h]

/-- A loss of power is never what stands for an empty list of inputs (log entry 5). -/
theorem powerCycle_mem_of_currentEvent (s : State) (h : currentEvent s = .powerCycle) : .powerCycle ∈ s.inputs := by
  unfold currentEvent at h
  cases hin : s.inputs with
  | nil => simp [hin] at h
  | cons e rest => simp [hin] at h; simp [h]

/-- Only an accepted command is executed (rule R27). -/
theorem acceptsNoCommand_of_not_accepts (s : State) (p : Pins) (rest : List HostEvent) (hin : s.inputs = .edge p :: rest)
    (h : accepts p s = false) : AcceptsNoCommand s := by
  intro i hk
  have hfit := stepKind_fits s
  rw [hk] at hfit
  obtain ⟨q, hq, ha, -⟩ := hfit
  rw [currentEvent_cons s _ rest hin] at hq
  cases hq
  simp [h] at ha

/-- Two states with the same inputs and the same control state take the same kind of step. -/
theorem stepKind_congr (s t : State) (hin : t.inputs = s.inputs) (hs : t.resetSeen = s.resetSeen) (hst : t.st = s.st) :
    stepKind t = stepKind s := by
  unfold stepKind currentEvent edgeKind runningEdgeKind accepts cmdReady
  rw [hin, hs, hst]

/-- A run that goes on for a step more is a step and the rest of the run. -/
theorem run_succ_eq_next (n : Nat) (s t : State) :
    Sys2Proof.core.run (n + 1) s = .next t ↔ ∃ u, step s = .next u ∧ Sys2Proof.core.run n u = .next t := by
  simp only [Host.Core.run, core_step]
  cases step s <;> simp

/-! ### What an acceptance edge writes -/

/-- The command is an ENC or DEC over a complete schedule, so the block starts (rules R170, R171). -/
def StartsBlock (i : Instr) (s : State) : Prop := s.keyValid = true ∧ ∃ b, i = .enc b ∨ i = .dec b

/-- Apart from KEY and a block that starts, an accepted command only raises an error (rules R231, R232, R233). -/
theorem afterExec_cases (i : Instr) (s : State) :
    (∃ b, i = .key b ∧ afterExec i s = acceptKey b s) ∨
    (∃ b, i = .enc b ∧ s.keyValid = true ∧ afterExec i s = startBlock .encrypt b s) ∨
    (∃ b, i = .dec b ∧ s.keyValid = true ∧ afterExec i s = startBlock .decrypt b s) ∨
    ((∀ b, i ≠ .key b) ∧ ¬StartsBlock i s ∧ ∃ e, e ≠ .ok ∧ afterExec i s = raiseError e s) := by
  cases i with
  | key b => exact .inl ⟨b, rfl, rfl⟩
  | enc b =>
    cases hk : s.keyValid with
    | true => exact .inr (.inl ⟨b, rfl, rfl, acceptBlock_starts _ b s hk⟩)
    | false => exact .inr (.inr (.inr ⟨by simp, by simp [StartsBlock, hk], .nokey, by simp, acceptBlock_nokey _ b s hk⟩))
  | dec b =>
    cases hk : s.keyValid with
    | true => exact .inr (.inr (.inl ⟨b, rfl, rfl, acceptBlock_starts _ b s hk⟩))
    | false => exact .inr (.inr (.inr ⟨by simp, by simp [StartsBlock, hk], .nokey, by simp, acceptBlock_nokey _ b s hk⟩))
  | rsvd b => exact .inr (.inr (.inr ⟨by simp, by simp [StartsBlock], .illegal, by simp, rfl⟩))

/-- What an accepted command writes to `err` (rule R35). -/
theorem afterExec_err (i : Instr) (s : State) :
    (afterExec i s).err = match i with
      | .key _ => 0
      | .enc _ => if s.keyValid then 0 else 1
      | .dec _ => if s.keyValid then 0 else 1
      | .rsvd _ => 2 := by
  cases i with
  | key b => rfl
  | enc b => cases hk : s.keyValid <;> simp [afterExec, acceptBlock, hk]
  | dec b => cases hk : s.keyValid <;> simp [afterExec, acceptBlock, hk]
  | rsvd b => rfl

/-- Only KEY writes the key halves and `key_valid` (rules R29, R31). -/
theorem afterExec_key_frame (i : Instr) (s : State) (h : ∀ b, i ≠ .key b) :
    (afterExec i s).C = s.C ∧ (afterExec i s).D = s.D ∧ (afterExec i s).keyValid = s.keyValid := by
  obtain ⟨b, hi, -⟩ | ⟨b, -, -, ha⟩ | ⟨b, -, -, ha⟩ | ⟨-, -, e, -, ha⟩ := afterExec_cases i s
  · exact absurd hi (h b)
  all_goals rw [ha]; exact ⟨rfl, rfl, rfl⟩

/-- Only a block that starts writes `L`, `R`, `mode` and `dout_valid` (rules R26, R32, R33). -/
theorem afterExec_block_frame (i : Instr) (s : State) (h : ¬StartsBlock i s) :
    (afterExec i s).L = s.L ∧ (afterExec i s).R = s.R ∧ (afterExec i s).mode = s.mode ∧
      (afterExec i s).doutValid = s.doutValid := by
  obtain ⟨b, -, ha⟩ | ⟨b, hi, hk, -⟩ | ⟨b, hi, hk, -⟩ | ⟨-, -, e, -, ha⟩ := afterExec_cases i s
  · rw [ha]; exact ⟨rfl, rfl, rfl, rfl⟩
  · exact absurd ⟨hk, b, .inl hi⟩ h
  · exact absurd ⟨hk, b, .inr hi⟩ h
  · rw [ha]; exact ⟨rfl, rfl, rfl, rfl⟩

/-- A block command over a complete schedule starts its block (rules R170, R171). -/
theorem afterExec_enc_starts (b : Block) (s : State) (h : s.keyValid = true) :
    afterExec (.enc b) s = startBlock .encrypt b s := acceptBlock_starts _ b s h
theorem afterExec_dec_starts (b : Block) (s : State) (h : s.keyValid = true) :
    afterExec (.dec b) s = startBlock .decrypt b s := acceptBlock_starts _ b s h

/-- What every block that starts writes, whichever its mode. -/
theorem afterExec_startsBlock (i : Instr) (s : State) (b : Block) (hk : s.keyValid = true) (hi : i = .enc b ∨ i = .dec b) :
    ∃ m, afterExec i s = startBlock m b s := by
  obtain rfl | rfl := hi
  · exact ⟨_, afterExec_enc_starts b s hk⟩
  · exact ⟨_, afterExec_dec_starts b s hk⟩

/-- The two halves a block command loads are the whole of IP (rule R170). -/
theorem initialL_append_initialR (b : Block) : initialL b ++ initialR b = permIP b := by
  apply BitVec.eq_of_getLsbD_eq
  intro i hi
  simp only [initialL, initialR, BitVec.getLsbD_append, BitVec.getLsbD_extractLsb']
  split
  · simp [*]
  · have h1 : i - 32 < 32 := by omega
    have h2 : 32 + (i - 32) = i := by omega
    simp [h1, h2]

/-! ### What an edge of a core that has been reset answers -/

/-- KEYGEN leads to no other state than KEYGEN and IDLE (rule R24). -/
theorem keygenEdge_st_ne_round (s : State) : (keygenEdge s).st ≠ .round := by
  rw [keygenEdge_st]
  split <;> decide

/-- ROUND leads to no other state than ROUND and IDLE (rule R24). -/
theorem roundEdge_st_ne_keygen (s : State) : (roundEdge s).st ≠ .keygen := by
  rw [roundEdge_st]
  split <;> decide

/-- Everything a rising edge can do to a core that has been reset, by whether it accepts a command (rules R27, R235). -/
theorem edge_cases (s : State) (p : Pins) (rest : List HostEvent) (hin : s.inputs = .edge p :: rest)
    (hs : s.resetSeen = true) :
    (p.rst = true ∧ accepts p s = false ∧ step s = .next (resetEdge (takeInput s))) ∨
    (p.rst = false ∧ accepts p s = true ∧ s.st = .idle ∧ step s = .next (afterExec (decode p.word) (takeInput s))) ∨
    (p.rst = false ∧ accepts p s = false ∧ s.st = .idle ∧ step s = .next (takeInput s)) ∨
    (p.rst = false ∧ accepts p s = false ∧ s.st = .keygen ∧ step s = .next (keygenEdge (takeInput s))) ∨
    (p.rst = false ∧ accepts p s = false ∧ s.st = .round ∧ step s = .next (roundEdge (takeInput s))) := by
  obtain ⟨hr, h⟩ | ⟨hr, hst, hv, h⟩ | ⟨hr, hst, hv, h⟩ | ⟨hr, hst, h⟩ | ⟨hr, hst, h⟩ := step_running_cases s p rest hin hs
  · exact .inl ⟨hr, by simp [accepts, hr], h⟩
  · exact .inr (.inl ⟨hr, (accepts_eq_true p s).2 ⟨hr, hv, hst⟩, hst, h⟩)
  · exact .inr (.inr (.inl ⟨hr, by simp [accepts, hv], hst, h⟩))
  · exact .inr (.inr (.inr (.inl ⟨hr, by simp [accepts, cmdReady, hst], hst, h⟩)))
  · exact .inr (.inr (.inr (.inr ⟨hr, by simp [accepts, cmdReady, hst], hst, h⟩)))

end Sys2Proof.Machine
end

section
/-!
CLAIM. The invariant of a core that has been reset is kept by every step: one lemma per kind of edge, then all of them by
the cases of a step.
-/
namespace Sys2Proof.Machine

theorem schedule_getElem (key : Block) (j : Fin 16) : (schedule key)[j] = scheduleEntry key j := by
  simp [schedule]

/-- A subkey file that holds every entry of a key's schedule is that schedule (rule R135). -/
theorem eq_schedule_of_entries (ks : Vector Subkey 16) (key : Block) (h : ∀ j : Fin 16, ks[j] = scheduleEntry key j) :
    ks = schedule key := by
  refine Vector.ext fun i hi => ?_
  exact (h ⟨i, hi⟩).trans (schedule_getElem key ⟨i, hi⟩).symm

/-- The invariant speaks of no input. -/
theorem coreInv_takeInput (s : State) (h : CoreInv s) : CoreInv (takeInput s) := h

/-- Before the first reset edge the invariant claims nothing (rule R263). -/
theorem coreInv_unresetCore (s : State) : CoreInv (unresetCore s) := fun h => nomatch h

/-- An idle core has only the invariant's clauses about `err`, `ctr` and the subkey file to keep. -/
theorem coreInv_of_idle (s : State) (hst : s.st = .idle) (he : ErrLegal s) (hc : s.ctr = 0) (hk : ScheduleComplete s) :
    CoreInv s :=
  fun _ => ⟨he, fun _ => hc, by simp [KeygenConsistent, hst], by simp [RoundConsistent, hst], hk⟩

/-- In KEYGEN the clause about the schedule in progress implies the others. -/
theorem coreInv_of_keygen (s : State) (hst : s.st = .keygen) (h : KeygenConsistent s) : CoreInv s := by
  obtain ⟨hkv, herr, -⟩ := h hst
  exact fun _ => ⟨by simp [ErrLegal, herr], by simp [CounterLegal, hst], h, by simp [RoundConsistent, hst],
    by simp [ScheduleComplete, hkv]⟩

/-- In ROUND the clause about the block in progress implies all others but the one about the subkey file. -/
theorem coreInv_of_round (s : State) (hst : s.st = .round) (h : RoundConsistent s) (hk : ScheduleComplete s) :
    CoreInv s := by
  obtain ⟨-, -, herr, -⟩ := h hst
  exact fun _ => ⟨by simp [ErrLegal, herr], by simp [CounterLegal, hst], by simp [KeygenConsistent, hst], h, hk⟩

theorem coreInv_resetEdge (s : State) : CoreInv (resetEdge s) :=
  coreInv_of_idle _ rfl (by simp [ErrLegal]) rfl (by simp [ScheduleComplete])

theorem coreInv_acceptKey (b : Block) (s : State) : CoreInv (acceptKey b s) :=
  coreInv_of_keygen _ rfl fun _ => ⟨rfl, rfl, b, rfl, rfl, by simp⟩

theorem coreInv_startBlock (m : Mode) (b : Block) (s : State) (hk : s.keyValid = true) (h : ScheduleComplete s) :
    CoreInv (startBlock m b s) :=
  coreInv_of_round _ rfl (fun _ => ⟨hk, rfl, rfl, b, rfl⟩) h

theorem coreInv_raiseError (e : CoreError) (s : State) (hst : s.st = .idle) (hc : s.ctr = 0) (h : ScheduleComplete s) :
    CoreInv (raiseError e s) :=
  coreInv_of_idle _ hst (by cases e <;> simp [ErrLegal]) hc h

/-- An acceptance edge of an idle core keeps the invariant (rules R130, R170, R171, R172). -/
theorem coreInv_afterExec (i : Instr) (s : State) (hs : s.resetSeen = true) (hst : s.st = .idle) (h : CoreInv s) :
    CoreInv (afterExec i s) := by
  obtain ⟨-, hctr, -, -, hsched⟩ := h hs
  obtain ⟨b, -, ha⟩ | ⟨b, -, hk, ha⟩ | ⟨b, -, hk, ha⟩ | ⟨-, -, e, -, ha⟩ := afterExec_cases i s <;> rw [ha]
  · exact coreInv_acceptKey b s
  · exact coreInv_startBlock _ b s hk hsched
  · exact coreInv_startBlock _ b s hk hsched
  · exact coreInv_raiseError e s hst (hctr hst) hsched

/-- A KEYGEN edge adds one subkey, and the last one completes the schedule (rules R133, R134). -/
theorem coreInv_keygenEdge (s : State) (hs : s.resetSeen = true) (hst : s.st = .keygen) (h : CoreInv s) :
    CoreInv (keygenEdge s) := by
  obtain ⟨herr, -, hkeygen, -, -⟩ := h hs
  obtain ⟨hkv, herr0, key, hC, hD, hKS⟩ := hkeygen hst
  have hext := keygenEdge_extends_schedule key s hC hD hKS
  by_cases hc : s.ctr = 15
  · obtain ⟨hctr', hst', -⟩ := keygenEdge_complete s hc
    have hcn : s.ctr.toNat = 15 := by rw [hc]; rfl
    exact coreInv_of_idle _ hst' herr hctr' fun _ =>
      ⟨key, eq_schedule_of_entries _ key fun j => hext j (by omega)⟩
  · obtain ⟨hctr', hst', hkv'⟩ := keygenEdge_advance s hc
    have hn : (keygenEdge s).ctr.toNat = s.ctr.toNat + 1 := by rw [hctr', ctr_succ_toNat _ hc]
    refine coreInv_of_keygen _ hst' fun _ => ⟨hkv'.trans hkv, herr0, key, ?_, ?_, ?_⟩
    · rw [hn, scheduleC, keygenEdge_C, hC]
    · rw [hn, scheduleD, keygenEdge_D, hD]
    · rw [hn]; exact hext

/-- A ROUND edge runs one round of the block, and the last one returns to IDLE (rules R176, R177). -/
theorem coreInv_roundEdge (s : State) (hs : s.resetSeen = true) (hst : s.st = .round) (h : CoreInv s) :
    CoreInv (roundEdge s) := by
  obtain ⟨herr, -, -, hround, hsched⟩ := h hs
  obtain ⟨hkv, hdv, herr0, block, hLR⟩ := hround hst
  by_cases hc : s.ctr = 15
  · obtain ⟨hctr', hst', -⟩ := roundEdge_complete s hc
    exact coreInv_of_idle _ hst' herr hctr' hsched
  · obtain ⟨hctr', hst', -, hdv'⟩ := roundEdge_advance s hc
    have hn : (roundEdge s).ctr.toNat = s.ctr.toNat + 1 := by rw [hctr', ctr_succ_toNat _ hc]
    refine coreInv_of_round _ hst' (fun _ => ⟨hkv, hdv'.trans hdv, herr0, block, ?_⟩) hsched
    rw [hn]
    exact roundEdge_runs_one_round s _ hLR

/-- Settles O32: every kind of step keeps the invariant. -/
theorem coreInvariantKeptByStep : Obligations.CoreInvariantKeptByStep := by
  intro s t hinv hstep
  have htake := coreInv_takeInput s hinv
  obtain ⟨-, h⟩ | ⟨-, h⟩ | ⟨p, -, -, h⟩ | ⟨p, -, -, -, -, h⟩ | ⟨p, -, -, -, -, h⟩ | ⟨p, -, -, hs, hst, -, h⟩ |
    ⟨p, -, -, -, -, -, h⟩ | ⟨p, -, -, hs, hst, h⟩ | ⟨p, -, -, hs, hst, h⟩ := step_cases s <;>
    rw [h] at hstep <;> cases hstep
  · exact coreInv_unresetCore _
  · exact htake
  · exact coreInv_resetEdge _
  · exact coreInv_unresetCore _
  · exact coreInv_afterExec _ _ hs hst htake
  · exact htake
  · exact coreInv_keygenEdge _ hs hst htake
  · exact coreInv_roundEdge _ hs hst htake

end Sys2Proof.Machine
end

section
/-!
CLAIM. The elements no output shows: two cores that agree on what the core can still bring to its ports stay so under the same
inputs. One simulation serves the elements that reset leaves unspecified and the key halves.
-/
namespace Sys2Proof.Machine

/-- Two cores that no run can tell apart at the ports (rules R37, R38). Beside the inputs and what the ports show they agree on
each element only while it can still be read: `ctr` outside IDLE, the key halves and the entries of `KS` already written in
KEYGEN, all of `KS` with `key_valid` = 1 or in ROUND, and the block in progress in ROUND. Their draw counters may differ while
the core has been reset and keeps its power, for then nothing drawn is ever read. -/
structure Indistinguishable (s t : State) : Prop where
  inputs : t.inputs = s.inputs
  resetSeen : t.resetSeen = s.resetSeen
  st : t.st = s.st
  keyValid : t.keyValid = s.keyValid
  dout : t.dout = s.dout
  doutValid : t.doutValid = s.doutValid
  err : t.err = s.err
  draws : (s.resetSeen = true ∧ KeepsPower s.inputs) ∨ t.freeIx = s.freeIx
  ctr : s.st ≠ .idle → t.ctr = s.ctr
  keyHalves : s.st = .keygen → t.C = s.C ∧ t.D = s.D
  written : s.st = .keygen → ∀ j : Fin 16, j.val < s.ctr.toNat → t.KS[j] = s.KS[j]
  subkeys : s.keyValid = true ∨ s.st = .round → t.KS = s.KS
  block : s.st = .round → t.mode = s.mode ∧ t.L = s.L ∧ t.R = s.R

theorem Indistinguishable.sameOutputs {s t : State} (h : Indistinguishable s t) : SameOutputs s t := by
  intro rst
  simp [outputs, cmdReady, h.st, h.dout, h.doutValid, h.keyValid, h.err]

theorem keepsPower_tail (events : List HostEvent) (h : KeepsPower events) : KeepsPower events.tail :=
  fun hmem => h (List.mem_of_mem_tail hmem)

theorem Indistinguishable.takeInput {s t : State} (h : Indistinguishable s t) :
    Indistinguishable (takeInput s) (takeInput t) :=
  { h with
    inputs := congrArg List.tail h.inputs
    draws := h.draws.imp_left fun ⟨hs, hp⟩ => ⟨hs, keepsPower_tail _ hp⟩ }

/-- Before the first reset edge the draw counters are equal. -/
theorem Indistinguishable.freeIx_of_unreset {s t : State} (h : Indistinguishable s t) (hs : s.resetSeen = false) :
    t.freeIx = s.freeIx :=
  h.draws.resolve_left fun hreset => by simp [hs] at hreset

/-- Where power is lost the draw counters are equal. -/
theorem Indistinguishable.freeIx_of_powerCycle {s t : State} (h : Indistinguishable s t)
    (he : currentEvent s = .powerCycle) : t.freeIx = s.freeIx :=
  h.draws.resolve_left fun hreset => hreset.2 (powerCycle_mem_of_currentEvent s he)

/-- With equal draw counters two unreset cores are the same in every register (log entry 4). -/
theorem Indistinguishable.unresetCore {s t : State} (h : Indistinguishable s t) (hix : t.freeIx = s.freeIx) :
    Indistinguishable (unresetCore s) (unresetCore t) := by
  have heq : Machine.unresetCore t = Machine.unresetCore s := by
    simp [Machine.unresetCore, hix, h.inputs]
  rw [heq]
  constructor <;> simp

theorem Indistinguishable.resetEdge {s t : State} (h : Indistinguishable s t) :
    Indistinguishable (resetEdge s) (resetEdge t) where
  inputs := h.inputs
  resetSeen := rfl
  st := rfl
  keyValid := rfl
  dout := rfl
  doutValid := rfl
  err := rfl
  draws := h.draws.imp (fun ⟨_, hp⟩ => ⟨rfl, hp⟩) (congrArg (· + 1))
  ctr := by simp
  keyHalves := by simp
  written := by simp
  subkeys := by simp
  block := by simp

/-- KEY loads the halves anew and makes the old subkeys unreadable (rule R130). -/
theorem Indistinguishable.acceptKey {s t : State} (b : Block) (h : Indistinguishable s t) :
    Indistinguishable (acceptKey b s) (acceptKey b t) :=
  { h with
    st := rfl
    keyValid := rfl
    err := rfl
    ctr := fun _ => rfl
    keyHalves := fun _ => ⟨rfl, rfl⟩
    written := by simp
    subkeys := by simp
    block := by simp }

/-- A block starts only over subkeys that both cores hold (rules R31, R170). -/
theorem Indistinguishable.startBlock {s t : State} (m : Mode) (b : Block) (h : Indistinguishable s t)
    (hk : s.keyValid = true) : Indistinguishable (startBlock m b s) (startBlock m b t) :=
  { h with
    st := rfl
    doutValid := rfl
    err := rfl
    ctr := fun _ => rfl
    keyHalves := by simp
    written := by simp
    subkeys := fun _ => h.subkeys (.inl hk)
    block := fun _ => ⟨rfl, rfl, rfl⟩ }

theorem Indistinguishable.raiseError {s t : State} (e : CoreError) (h : Indistinguishable s t) :
    Indistinguishable (raiseError e s) (raiseError e t) :=
  { h with err := rfl }

theorem Indistinguishable.acceptBlock {s t : State} (m : Mode) (b : Block) (h : Indistinguishable s t) :
    Indistinguishable (acceptBlock m b s) (acceptBlock m b t) := by
  cases hk : s.keyValid with
  | true =>
    rw [acceptBlock_starts m b s hk, acceptBlock_starts m b t (h.keyValid.trans hk)]
    exact h.startBlock m b hk
  | false =>
    rw [acceptBlock_nokey m b s hk, acceptBlock_nokey m b t (h.keyValid.trans hk)]
    exact h.raiseError .nokey

theorem Indistinguishable.afterExec {s t : State} (i : Instr) (h : Indistinguishable s t) :
    Indistinguishable (afterExec i s) (afterExec i t) := by
  cases i with
  | key b => exact h.acceptKey b
  | enc b => exact h.acceptBlock .encrypt b
  | dec b => exact h.acceptBlock .decrypt b
  | rsvd b => exact h.raiseError .illegal

/-- In KEYGEN both cores write the same subkey, and after the last one hold the same file (rules R133, R134). -/
theorem Indistinguishable.keygenEdge {s t : State} (h : Indistinguishable s t) (hst : s.st = .keygen) :
    Indistinguishable (keygenEdge s) (keygenEdge t) := by
  have hctr : t.ctr = s.ctr := h.ctr (by simp [hst])
  obtain ⟨hC, hD⟩ := h.keyHalves hst
  have hwritten : ∀ j : Fin 16, j.val < s.ctr.toNat + 1 → (Machine.keygenEdge t).KS[j] = (Machine.keygenEdge s).KS[j] := by
    intro j hj
    rw [keygenEdge_KS, keygenEdge_KS, writeKS_get, writeKS_get, hctr, hC, hD]
    split
    · rfl
    · rename_i hne
      have : j.val ≠ s.ctr.toNat := fun e => hne (Fin.ext e)
      exact h.written hst j (by omega)
  exact
  { h with
    st := by simp [hctr]
    keyValid := by simp [hctr, h.keyValid]
    ctr := fun _ => by simp [hctr]
    keyHalves := fun _ => by simp [hctr, hC, hD]
    written := fun hst' j hj => by
      by_cases hc : s.ctr = 15
      · obtain ⟨-, hidle, -⟩ := keygenEdge_complete s hc
        rw [hidle] at hst'
        cases hst'
      · obtain ⟨hctr', -, -⟩ := keygenEdge_advance s hc
        rw [hctr', ctr_succ_toNat _ hc] at hj
        exact hwritten j hj
    subkeys := fun hread => by
      by_cases hc : s.ctr = 15
      · have hlast : s.ctr.toNat = 15 := by rw [hc]; rfl
        exact Vector.ext fun i hi => hwritten ⟨i, hi⟩ (by simp only; omega)
      · obtain ⟨-, hst', hkv'⟩ := keygenEdge_advance s hc
        have hKS : t.KS = s.KS := h.subkeys (by rwa [hkv', hst', ← hst] at hread)
        simp only [keygenEdge_KS, writeKS, hctr, hC, hD, hKS]
    block := fun hst' => absurd hst' (keygenEdge_st_ne_round s) }

theorem Indistinguishable.roundEdge {s t : State} (h : Indistinguishable s t) (hst : s.st = .round) :
    Indistinguishable (roundEdge s) (roundEdge t) := by
  have hctr : t.ctr = s.ctr := h.ctr (by simp [hst])
  have hKS : t.KS = s.KS := h.subkeys (.inr hst)
  obtain ⟨hmode, hL, hR⟩ := h.block hst
  have hnext : nextHalves t = nextHalves s := by simp [nextHalves, readKS, hctr, hKS, hmode, hL, hR]
  exact
  { h with
    st := by simp [hctr]
    dout := by simp [hctr, hnext, h.dout]
    doutValid := by simp [hctr, h.doutValid]
    ctr := fun _ => by simp [hctr]
    keyHalves := fun hst' => absurd hst' (roundEdge_st_ne_keygen s)
    written := fun hst' => absurd hst' (roundEdge_st_ne_keygen s)
    subkeys := fun _ => hKS
    block := fun _ => ⟨hmode, by simp [hnext], by simp [hnext]⟩ }

/-- What a step that accepts no command does to the one core it does to the other. -/
theorem Indistinguishable.otherStep {s t s' : State} (k : OtherStep) (h : Indistinguishable s t)
    (hfit : KindFits s (.other k)) (hstep : otherStep k (Machine.takeInput s) = .next s') :
    ∃ t', otherStep k (Machine.takeInput t) = .next t' ∧ Indistinguishable s' t' := by
  have htake := h.takeInput
  cases k with
  | powerCycle => cases hstep; exact ⟨_, rfl, htake.unresetCore (h.freeIx_of_powerCycle hfit)⟩
  | clkStopped => cases hstep; exact ⟨_, rfl, htake⟩
  | reset => cases hstep; exact ⟨_, rfl, htake.resetEdge⟩
  | unreset => cases hstep; exact ⟨_, rfl, htake.unresetCore (h.freeIx_of_unreset hfit)⟩
  | offeredUnreset => cases hstep
  | idle => cases hstep; exact ⟨_, rfl, htake⟩
  | keygen => cases hstep; exact ⟨_, rfl, htake.keygenEdge hfit.2⟩
  | round => cases hstep; exact ⟨_, rfl, htake.roundEdge hfit.2⟩

/-- The simulation: if the one core's step goes on, so does the other's, and they stay indistinguishable. -/
theorem Indistinguishable.step {s t s' : State} (h : Indistinguishable s t) (hstep : step s = .next s') :
    ∃ t', step t = .next t' ∧ Indistinguishable s' t' := by
  have hkind : stepKind t = stepKind s := stepKind_congr s t h.inputs h.resetSeen h.st
  have hfit := stepKind_fits s
  unfold Machine.step at hstep ⊢
  rw [hkind]
  cases hk : stepKind s with
  | command i =>
    simp only [hk, exec_eq] at hstep ⊢
    cases hstep
    exact ⟨_, rfl, h.takeInput.afterExec i⟩
  | other k =>
    rw [hk] at hfit hstep
    exact h.otherStep k hfit hstep

theorem Indistinguishable.run {s t s' : State} (h : Indistinguishable s t) (n : Nat)
    (hrun : Sys2Proof.core.run n s = .next s') :
    ∃ t', Sys2Proof.core.run n t = .next t' ∧ Indistinguishable s' t' := by
  induction n generalizing s t with
  | zero => rw [run_zero] at hrun; cases hrun; exact ⟨t, rfl, h⟩
  | succ n ih =>
    obtain ⟨u, hstep, hrest⟩ := (run_succ_eq_next n s s').1 hrun
    obtain ⟨v, hstep', huv⟩ := h.step hstep
    rw [run_succ_of_next n t v hstep']
    exact ih huv hrest

/-- Whatever an indistinguishable core runs to, the other runs to with the same outputs. -/
theorem Indistinguishable.run_sameOutputs {s t : State} (h : Indistinguishable s t) (n : Nat) (s' : State)
    (hrun : Sys2Proof.core.run n s = .next s') :
    ∃ t', Sys2Proof.core.run n t = .next t' ∧ SameOutputs s' t' := by
  obtain ⟨t', hrun', h'⟩ := h.run n hrun
  exact ⟨t', hrun', h'.sameOutputs⟩

/-- Outside KEYGEN cores that differ only in the key halves, and in the draw counter where it does not matter, are
indistinguishable. -/
theorem indistinguishable_withKeyHalves (s : State) (c d : KeyHalf) (ix : Nat) (hst : s.st ≠ .keygen)
    (hdraws : (s.resetSeen = true ∧ KeepsPower s.inputs) ∨ ix = s.freeIx) :
    Indistinguishable s { s with C := c, D := d, freeIx := ix } where
  inputs := rfl
  resetSeen := rfl
  st := rfl
  keyValid := rfl
  dout := rfl
  doutValid := rfl
  err := rfl
  draws := hdraws
  ctr := fun _ => rfl
  keyHalves := fun h => absurd h hst
  written := fun h => absurd h hst
  subkeys := fun _ => rfl
  block := fun _ => ⟨rfl, rfl, rfl⟩

/-- Settles O42: two idle cores without a key agree on all that can still be read. -/
theorem unspecifiedResetValuesUnobservable : Obligations.UnspecifiedResetValuesUnobservable := by
  intro s t hs ht hst hst' hkv hkv' hdout hdv herr hin hpower
  have h : Indistinguishable s t :=
    { inputs := hin.symm
      resetSeen := ht.trans hs.symm
      st := hst'.trans hst.symm
      keyValid := hkv'.trans hkv.symm
      dout := hdout.symm
      doutValid := hdv.symm
      err := herr.symm
      draws := .inl ⟨hs, hpower⟩
      ctr := by simp [hst]
      keyHalves := by simp [hst]
      written := by simp [hst]
      subkeys := by simp [hst, hkv]
      block := by simp [hst] }
  exact h.run_sameOutputs

/-- Settles O43: with equal draw counters the key halves outside KEYGEN are never read. -/
theorem keyHalvesUnobservable : Obligations.KeyHalvesUnobservable :=
  fun s c d hst => (indistinguishable_withKeyHalves s c d s.freeIx hst (.inr rfl)).run_sameOutputs

/-- Settles O56: on a core that has been reset and keeps its power the draw counters may differ too. -/
theorem keyHalvesUnobservableWhateverIsDrawn : Obligations.KeyHalvesUnobservableWhateverIsDrawn :=
  fun s c d ix hs hst hpower => (indistinguishable_withKeyHalves s c d ix hst (.inl ⟨hs, hpower⟩)).run_sameOutputs

end Sys2Proof.Machine
end

section
/-!
CLAIM. What each rising edge of a core that has been reset writes: to `err`, to `dout_valid`, to `dout` and the halves of the
block, and to the key state and `mode`. Each proof goes through the five edges of `edge_cases`.
-/
namespace Sys2Proof.Machine

/-- Settles O34: of the five edges only the reset and the acceptance write `err`. -/
theorem errWrittenAtAcceptanceAndReset : Obligations.ErrWrittenAtAcceptanceAndReset := by
  intro s p rest hin hs
  obtain ⟨hr, ha, h⟩ | ⟨hr, ha, -, h⟩ | ⟨hr, ha, -, h⟩ | ⟨hr, ha, -, h⟩ | ⟨hr, ha, -, h⟩ := edge_cases s p rest hin hs <;>
    refine ⟨_, h, ?_⟩
  · exact ⟨fun _ => rfl, by simp [hr], by simp [ha]⟩
  · exact ⟨by simp [hr], by simp [ha], fun _ => afterExec_err _ _⟩
  all_goals exact ⟨by simp [hr], fun _ _ => rfl, by simp [ha]⟩

/-- Settles O35: apart from a reset only a block that starts and the last ROUND edge write `dout_valid`. -/
theorem doutValidWrites : Obligations.DoutValidWrites := by
  intro s p rest hin hs
  obtain ⟨hr, ha, h⟩ | ⟨hr, ha, hst, h⟩ | ⟨hr, ha, hst, h⟩ | ⟨hr, ha, hst, h⟩ | ⟨hr, ha, hst, h⟩ :=
    edge_cases s p rest hin hs <;> refine ⟨_, h, ?_⟩
  · exact ⟨fun _ => rfl, by simp [hr], by simp [ha], by simp [hr]⟩
  · refine ⟨by simp [hr], by simp [hst], fun _ hk hi => ?_, fun _ _ hno => ?_⟩
    · obtain ⟨b, hb⟩ := hi
      obtain ⟨m, hm⟩ := afterExec_startsBlock _ (takeInput s) b hk hb
      rw [hm, startBlock_doutValid]
    · obtain ⟨-, -, -, hdv⟩ := afterExec_block_frame _ (takeInput s) fun hb => hno ⟨ha, hb⟩
      exact hdv
  · exact ⟨by simp [hr], by simp [hst], by simp [ha], fun _ _ _ => rfl⟩
  · exact ⟨by simp [hr], by simp [hst], by simp [ha], fun _ _ _ => rfl⟩
  · refine ⟨by simp [hr], fun _ _ hc => ?_, by simp [ha], fun _ hno _ => ?_⟩
    · obtain ⟨-, -, -, hdv⟩ := roundEdge_complete (takeInput s) hc
      exact hdv
    · obtain ⟨-, -, -, hdv⟩ := roundEdge_advance (takeInput s) fun hc => hno ⟨hst, hc⟩
      exact hdv

/-- Settles O36: outside ROUND and a reset only a block that starts writes the halves, and only the last ROUND edge writes
`dout`. -/
theorem doutAndHalvesWrites : Obligations.DoutAndHalvesWrites := by
  intro s p rest hin hs
  obtain ⟨hr, ha, h⟩ | ⟨hr, ha, hst, h⟩ | ⟨hr, ha, hst, h⟩ | ⟨hr, ha, hst, h⟩ | ⟨hr, ha, hst, h⟩ :=
    edge_cases s p rest hin hs <;> refine ⟨_, h, ?_⟩
  · exact ⟨fun _ => rfl, by simp [hr], by simp [hr], by simp [ha], by simp [hr]⟩
  · refine ⟨by simp [hr], by simp [hst], fun _ _ => afterExec_dout _ _, fun b _ hk hb => ?_, fun _ _ hno => ?_⟩
    · obtain ⟨m, hm⟩ := afterExec_startsBlock _ (takeInput s) b hk hb
      rw [hm, startBlock_L, startBlock_R, initialL_append_initialR]
    · obtain ⟨hL, hR, -⟩ := afterExec_block_frame _ (takeInput s) fun hb => hno ⟨ha, hb⟩
      exact ⟨hL, hR⟩
  · exact ⟨by simp [hr], by simp [hst], fun _ _ => rfl, by simp [ha], fun _ _ _ => ⟨rfl, rfl⟩⟩
  · exact ⟨by simp [hr], by simp [hst], fun _ _ => rfl, by simp [ha], fun _ _ _ => ⟨rfl, rfl⟩⟩
  · refine ⟨by simp [hr], fun _ _ hc => ?_, fun _ hno => ?_, by simp [ha], by simp [hst]⟩
    · obtain ⟨-, -, hdout, -⟩ := roundEdge_complete (takeInput s) hc
      exact hdout
    · obtain ⟨-, -, hdout, -⟩ := roundEdge_advance (takeInput s) fun hc => hno ⟨hst, hc⟩
      exact hdout

/-- Settles O37: by the four edges with `rst` = 0. -/
theorem keyStateAndModeWrites : Obligations.KeyStateAndModeWrites := by
  intro s p rest hin hs hr
  obtain ⟨hr', -⟩ | ⟨-, ha, hst, h⟩ | ⟨-, ha, -, h⟩ | ⟨-, ha, hst, h⟩ | ⟨-, ha, hst, h⟩ := edge_cases s p rest hin hs
  · simp [hr] at hr'
  · refine ⟨_, h, fun _ => afterExec_KS _ _, fun _ hno => ?_, by simp [hst], fun hno => ?_, fun b _ hk hi => ?_,
      fun b _ hk hi => ?_⟩
    · exact afterExec_key_frame _ (takeInput s) fun b hb => hno ⟨ha, b, hb⟩
    · obtain ⟨-, -, hmode, -⟩ := afterExec_block_frame _ (takeInput s) fun hb => hno ⟨ha, hb⟩
      exact hmode
    · rw [hi, afterExec_enc_starts b (takeInput s) hk, startBlock_mode]
    · rw [hi, afterExec_dec_starts b (takeInput s) hk, startBlock_mode]
  · exact ⟨_, h, fun _ => rfl, fun _ _ => ⟨rfl, rfl, rfl⟩, fun _ _ => rfl, fun _ => rfl, by simp [ha], by simp [ha]⟩
  · refine ⟨_, h, by simp [hst], by simp [hst], fun _ hc => ?_, fun _ => rfl, by simp [ha], by simp [ha]⟩
    obtain ⟨-, -, hkv⟩ := keygenEdge_advance (takeInput s) hc
    exact hkv
  · exact ⟨_, h, fun _ => rfl, fun _ _ => ⟨rfl, rfl, rfl⟩, fun _ _ => rfl, fun _ => rfl, by simp [ha], by simp [ha]⟩

end Sys2Proof.Machine
end

section
/-!
CLAIM. The handshake: when a command runs, when `cmd_ready` is 1, that quiet edges lead there, and the STATUS word.
-/
namespace Sys2Proof.Machine

/-- How many edges at most a core stays busy: none in IDLE, else what is left of the 16 steps (rules R25, R270). -/
def busyFor (s : State) : Nat := if s.st = .idle then 0 else 16 - s.ctr.toNat

theorem busyFor_le (s : State) : busyFor s ≤ busyEdges := by
  unfold busyFor busyEdges
  split <;> omega

theorem busyFor_of_idle (s : State) (h : s.st = .idle) : busyFor s = 0 := if_pos h

theorem busyFor_of_busy (s : State) (h : s.st ≠ .idle) : busyFor s = 16 - s.ctr.toNat := if_neg h

theorem idle_of_busyFor_eq_zero (s : State) (h : busyFor s = 0) : s.st = .idle := by
  by_contra hst
  have := s.ctr.isLt
  rw [busyFor_of_busy s hst] at h
  omega

/-- A step of a busy core that goes on to the next value of `ctr`, or to IDLE after 15, takes one edge off. -/
theorem busyFor_of_advance (s t : State) (hst : s.st ≠ .idle) (hlast : s.ctr = 15 → t.st = .idle)
    (hnext : s.ctr ≠ 15 → t.st ≠ .idle ∧ t.ctr = s.ctr + 1) : busyFor t = busyFor s - 1 := by
  rw [busyFor_of_busy s hst]
  by_cases hc : s.ctr = 15
  · rw [busyFor_of_idle t (hlast hc), hc]
    rfl
  · obtain ⟨hst', hctr⟩ := hnext hc
    rw [busyFor_of_busy t hst', hctr, ctr_succ_toNat _ hc, Nat.sub_sub]

theorem busyFor_keygenEdge (s : State) (hst : s.st = .keygen) : busyFor (keygenEdge s) = busyFor s - 1 := by
  refine busyFor_of_advance s _ (by simp [hst]) (fun hc => ?_) fun hc => ?_
  · obtain ⟨-, hst', -⟩ := keygenEdge_complete s hc
    exact hst'
  · obtain ⟨hctr, hst', -⟩ := keygenEdge_advance s hc
    exact ⟨by simp only [hst']; decide, hctr⟩

theorem busyFor_roundEdge (s : State) (hst : s.st = .round) : busyFor (roundEdge s) = busyFor s - 1 := by
  refine busyFor_of_advance s _ (by simp [hst]) (fun hc => ?_) fun hc => ?_
  · obtain ⟨-, hst', -⟩ := roundEdge_complete s hc
    exact hst'
  · obtain ⟨hctr, hst', -⟩ := roundEdge_advance s hc
    exact ⟨by simp only [hst']; decide, hctr⟩

/-- A quiet edge brings a core that has been reset one edge nearer to IDLE. -/
theorem quiet_step (s : State) (p : Pins) (rest : List HostEvent) (hin : s.inputs = .edge p :: rest)
    (hs : s.resetSeen = true) (hr : p.rst = false) (hv : p.cmdValid = false) :
    ∃ t, step s = .next t ∧ t.resetSeen = true ∧ t.inputs = rest ∧ busyFor t = busyFor s - 1 := by
  have hrest : (takeInput s).inputs = rest := by rw [takeInput_inputs, hin, List.tail_cons]
  cases hst : s.st with
  | idle => exact ⟨_, step_idle s p rest hin hs hr hst hv, hs, hrest, by simp [busyFor, hst]⟩
  | keygen => exact ⟨_, step_keygen s p rest hin hs hr hst, hs, hrest, busyFor_keygenEdge (takeInput s) hst⟩
  | round => exact ⟨_, step_round s p rest hin hs hr hst, hs, hrest, busyFor_roundEdge (takeInput s) hst⟩

theorem quiet_run (ps : List Pins) (rest : List HostEvent) (hr : NoReset ps) (hv : ∀ p ∈ ps, p.cmdValid = false)
    (s : State) (hin : s.inputs = edges ps ++ rest) (hs : s.resetSeen = true) :
    ∃ t, Sys2Proof.core.run ps.length s = .next t ∧ t.inputs = rest ∧ busyFor t = busyFor s - ps.length := by
  induction ps generalizing s with
  | nil => exact ⟨s, rfl, hin, rfl⟩
  | cons p ps ih =>
    obtain ⟨hrp, hrps⟩ := List.forall_mem_cons.1 hr
    obtain ⟨hvp, hvps⟩ := List.forall_mem_cons.1 hv
    obtain ⟨u, hstep, hu, hinu, hbu⟩ := quiet_step s p (edges ps ++ rest) hin hs hrp hvp
    obtain ⟨t, hrun, hint, hbt⟩ := ih hrps hvps u hinu hu
    refine ⟨t, (run_succ_eq_next _ s t).2 ⟨u, hstep, hrun⟩, hint, ?_⟩
    rw [hbt, hbu, List.length_cons]
    omega

/-- Settles O40: each of the 16 quiet edges takes one from `busyFor`, which is at most 16. -/
theorem readyWithinSixteenEdges : Obligations.ReadyWithinSixteenEdges := by
  intro s ps rest hs hlen hr hv hin
  obtain ⟨t, hrun, hint, hbusy⟩ := quiet_run ps rest hr hv s hin hs
  have hle : busyFor s ≤ 16 := busyFor_le s
  have hidle : t.st = .idle := idle_of_busyFor_eq_zero t (by omega)
  exact ⟨t, hlen ▸ hrun, (cmdReady_eq_true _ _).2 ⟨hidle, rfl⟩, hint⟩

/-- While no command can be accepted a step reads no port but `rst` (rule R27). -/
theorem step_eq_of_no_acceptance (s t : State) (p q : Pins) (rest : List HostEvent) (hin : s.inputs = .edge p :: rest)
    (hin' : t.inputs = .edge q :: rest) (htake : takeInput t = takeInput s) (hs : s.resetSeen = true)
    (hp : p.rst = false) (hq : q.rst = false) (h : s.st ≠ .idle ∨ (p.cmdValid = false ∧ q.cmdValid = false)) :
    step t = step s := by
  have hst' : t.st = s.st := by simpa using congrArg State.st htake
  have hs' : t.resetSeen = true := by simpa [hs] using congrArg State.resetSeen htake
  cases hst : s.st with
  | idle =>
    obtain ⟨hvp, hvq⟩ := h.resolve_left (not_not_intro hst)
    rw [step_idle s p rest hin hs hp hst hvp, step_idle t q rest hin' hs' hq (hst'.trans hst) hvq, htake]
  | keygen => rw [step_keygen s p rest hin hs hp hst, step_keygen t q rest hin' hs' hq (hst'.trans hst), htake]
  | round => rw [step_round s p rest hin hs hp hst, step_round t q rest hin' hs' hq (hst'.trans hst), htake]

/-- Settles O25: the acceptance edge, the converse from the kinds of step, and the ports a step ignores. -/
theorem stepExecutesAcceptedCommand : Obligations.StepExecutesAcceptedCommand := by
  intro s p rest hin hs
  refine ⟨fun ⟨hr, hv, hready⟩ => ?_, fun hno => ?_, fun q hp hq h => ?_⟩
  · obtain ⟨hst, -⟩ := (cmdReady_eq_true _ _).1 hready
    rw [step_accept s p rest hin hs hr hst hv, takeInput_cons s _ rest hin, exec_eq]
    rfl
  · refine acceptsNoCommand_of_not_accepts s p rest hin (Bool.eq_false_iff.2 fun ha => hno ?_)
    obtain ⟨hr, hv, hst⟩ := (accepts_eq_true p s).1 ha
    exact ⟨hr, hv, (cmdReady_eq_true _ _).2 ⟨hst, hr⟩⟩
  · exact step_eq_of_no_acceptance s _ p q rest hin rfl (takeInput_cons s _ rest hin).symm hs hp hq h

/-- Settles O26: the second half since acceptance needs `rst` = 0. -/
theorem cmdReadyIsIdleAndNotReset : Obligations.CmdReadyIsIdleAndNotReset :=
  ⟨cmdReady_eq_true, fun s p rest hin hr => acceptsNoCommand_of_not_accepts s p rest hin (by simp [accepts, hr])⟩

/-- Settles O41: the word is made of its four fields alone, which have 32 values together. -/
theorem statusWordLayout : Obligations.StatusWordLayout := by
  intro rst s
  unfold statusWord
  generalize cmdReady rst s = ready
  generalize s.keyValid = kv
  generalize s.doutValid = dv
  generalize s.err = err
  revert ready kv dv err
  decide

end Sys2Proof.Machine
end

section
/-!
CLAIM. The operand forms: where the bytes of a buffer stand in an operand and in the output (rules R52, R53).
-/
namespace Sys2Proof.Machine

/-! ### One byte of an operand -/

/-- One byte taken into an operand: it stands last, after what is there already (rule R52). -/
def appendByte (acc : Block) (b : Byte) : Block := (acc <<< 8) ||| b.setWidth 64

theorem blockOfBytes_eq_foldl (bytes : List Byte) : blockOfBytes bytes = bytes.foldl appendByte 0 := rfl

theorem seq_appendByte (acc : Block) (b : Byte) (i : Nat) (h : i < 64) :
    seq (appendByte acc b) i = if i < 56 then seq acc (i + 8) else seq b (i - 56) := by
  simp only [seq, appendByte, BitVec.getMsbD_or, BitVec.getMsbD_shiftLeft, BitVec.getMsbD_setWidth]
  by_cases hi : i < 56
  · simp [hi, show ¬ 56 ≤ i by omega]
  · simp [hi, show 56 ≤ i by omega, show 64 ≤ i + 8 by omega]

/-- Bit `j` of a byte of a block, counted from the byte's most significant bit (rule R53). -/
theorem seq_blockByte (v : Block) (k j : Nat) (hk : k < 8) (hj : j < 8) : seq (blockByte v k) j = seq v (8 * k + j) := by
  have hindex : 56 - 8 * k + (8 - 1 - j) = 64 - 1 - (8 * k + j) := by omega
  simp [seq, blockByte, BitVec.getMsbD_eq_getLsbD, hj, hindex, show 8 * k + j < 64 by omega, show 7 - j < 8 by omega]

theorem seq_byte (b : Byte) (j : Nat) (hj : j < 8) : seq b j = b.getLsbD (7 - j) := by
  simp [seq, BitVec.getMsbD_eq_getLsbD, hj]

theorem bytesOfBlock_getD (v : Block) (k : Nat) (hk : k < 8) : (bytesOfBlock v).getD k 0 = blockByte v k := by
  interval_cases k <;> rfl

/-! ### The assembled operand -/

/-- Each byte taken in moves the block it is taken into up by 8 places. -/
theorem seq_assemble_earlier (bytes : List Byte) (acc : Block) (i : Nat) (h : i + 8 * bytes.length < 64) :
    seq (bytes.foldl appendByte acc) i = seq acc (i + 8 * bytes.length) := by
  induction bytes generalizing acc with
  | nil => rfl
  | cons b bytes ih =>
    rw [List.length_cons] at h ⊢
    rw [List.foldl_cons, ih _ (by omega), seq_appendByte _ _ _ (by omega), if_pos (by omega),
      Nat.mul_succ, Nat.add_assoc]

/-- The bytes taken in end at the block's last place, 64; `start` is the place of the first of them. -/
theorem seq_assemble (bytes : List Byte) (acc : Block) (start k j : Nat) (h : start + 8 * bytes.length = 64)
    (hk : k < bytes.length) (hj : j < 8) :
    seq (bytes.foldl appendByte acc) (start + (8 * k + j)) = seq (bytes.getD k 0) j := by
  induction bytes generalizing acc start k with
  | nil => simp at hk
  | cons b bytes ih =>
    rw [List.length_cons] at h hk
    rw [List.foldl_cons]
    cases k with
    | zero =>
      rw [seq_assemble_earlier _ _ _ (by omega), seq_appendByte _ _ _ (by omega), if_neg (by omega), List.getD_cons_zero]
      congr 1
      omega
    | succ k =>
      rw [List.getD_cons_succ, ← ih _ (start + 8) k (by omega) (by omega)]
      congr 1
      omega

/-- Bit `j` of byte `Bk` has sequence index `8k + j` (rule R52). -/
theorem seq_blockOfBytes (bytes : List Byte) (hlen : bytes.length = 8) (k j : Nat) (hk : k < 8) (hj : j < 8) :
    seq (blockOfBytes bytes) (8 * k + j) = seq (bytes.getD k 0) j := by
  have h := seq_assemble bytes 0 0 k j (by omega) (by omega) hj
  rwa [Nat.zero_add, ← blockOfBytes_eq_foldl] at h

theorem blockByte_blockOfBytes (bytes : List Byte) (hlen : bytes.length = 8) (k : Nat) (hk : k < 8) :
    blockByte (blockOfBytes bytes) k = bytes.getD k 0 :=
  seq_ext fun j hj => by rw [seq_blockByte _ _ _ hk hj, seq_blockOfBytes _ hlen _ _ hk hj]

theorem bytesOfBlock_blockOfBytes (bytes : List Byte) (hlen : bytes.length = 8) :
    bytesOfBlock (blockOfBytes bytes) = bytes := by
  refine List.ext_getElem hlen.symm fun k hk hk' => ?_
  have hget := bytesOfBlock_getD (blockOfBytes bytes) k hk
  rwa [blockByte_blockOfBytes _ hlen _ hk, List.getD_eq_getElem _ _ hk, List.getD_eq_getElem _ _ hk'] at hget

theorem blockOfBytes_bytesOfBlock (v : Block) : blockOfBytes (bytesOfBlock v) = v :=
  seq_ext fun i hi => by
    have hk : i / 8 < 8 := by omega
    have hj : i % 8 < 8 := by omega
    rw [← Nat.div_add_mod i 8, seq_blockOfBytes _ (bytesOfBlock_length v) _ _ hk hj, bytesOfBlock_getD _ _ hk,
      seq_blockByte _ _ _ hk hj]

/-- Settles O46: the two directions are inverse to each other bit by bit, in sequence numbering. -/
theorem operandBytesAreBigEndian : Obligations.OperandBytesAreBigEndian := by
  refine ⟨fun bytes hlen => ⟨bytesOfBlock_blockOfBytes bytes hlen, fun k hk => ⟨?_, fun j hj => ?_⟩⟩, fun v => ?_, ?_⟩
  · exact blockByte_blockOfBytes bytes hlen k hk
  · rw [seq_blockOfBytes bytes hlen k j hk hj, seq_byte _ j hj]
  · exact ⟨blockOfBytes_bytesOfBlock v, bytesOfBlock_length v, fun k hk => bytesOfBlock_getD v k hk⟩
  · decide

end Sys2Proof.Machine
end

section
/-!
CLAIM. The six tables as rearrangements of index ranges (rule R101), with the indices PC1 and PC2 omit and those E repeats.
-/
namespace Sys2Proof.Machine

/-- A list that some omitted indices complete to a rearrangement of `0..n-1`: a table of rule R101 whose indices occur at
most once (a full permutation omits none). -/
theorem lt_and_count_of_append_perm_range {l omitted : List Nat} {n : Nat} (h : (l ++ omitted).Perm (List.range n)) :
    (∀ i ∈ l, i < n) ∧ ∀ k < n, l.count k = if k ∈ omitted then 0 else 1 := by
  have hnodup : omitted.Nodup := (List.nodup_append.1 (h.nodup_iff.2 List.nodup_range)).2.1
  refine ⟨fun i hi => List.mem_range.1 (h.subset (List.mem_append_left _ hi)), fun k hk => ?_⟩
  have hcount : l.count k + omitted.count k = 1 := by rw [← List.count_append, h.count_eq, List.count_range, if_pos hk]
  rw [hnodup.count] at hcount
  split_ifs at hcount ⊢ <;> omega

/-- The same for a table with repeated indices, as E. -/
theorem lt_and_count_of_perm_range_append {l repeated : List Nat} {n : Nat} (h : l.Perm (List.range n ++ repeated))
    (hlt : ∀ i ∈ repeated, i < n) (hnodup : repeated.Nodup) :
    (∀ i ∈ l, i < n) ∧ ∀ k < n, l.count k = if k ∈ repeated then 2 else 1 := by
  refine ⟨fun i hi => ?_, fun k hk => ?_⟩
  · exact (List.mem_append.1 (h.subset hi)).elim List.mem_range.1 (hlt i)
  · rw [h.count_eq, List.count_append, List.count_range, if_pos hk, hnodup.count]
    split <;> rfl

/-- Without omitted indices: a permutation of `0..n-1`. -/
theorem lt_and_count_of_perm_range {l : List Nat} {n : Nat} (h : l.Perm (List.range n)) :
    (∀ i ∈ l, i < n) ∧ ∀ k < n, l.count k = 1 := by
  simpa using lt_and_count_of_append_perm_range (omitted := []) (by simpa using h)

theorem ipTable_perm_range : ipTable.toList.Perm (List.range 64) := by decide

theorem fpTable_perm_range : fpTable.toList.Perm (List.range 64) := by decide

theorem pTable_perm_range : pTable.toList.Perm (List.range 32) := by decide

/-- The outer two bits of every lane of E are shared with the neighbouring lanes (rule R104). -/
theorem eTable_perm_range_append_shared :
    eTable.toList.Perm (List.range 32 ++ [0, 3, 4, 7, 8, 11, 12, 15, 16, 19, 20, 23, 24, 27, 28, 31]) := by decide

/-- PC1 omits the parity bits (rule R106). -/
theorem pc1Table_append_parity_perm_range :
    (pc1Table.toList ++ [7, 15, 23, 31, 39, 47, 55, 63]).Perm (List.range 64) := by decide

theorem pc2Table_append_omitted_perm_range :
    (pc2Table.toList ++ [8, 17, 21, 24, 34, 37, 42, 53]).Perm (List.range 56) := by decide

theorem ipTable_getD_fpTable : ∀ i : Fin 64, ipTable.toList.getD (fpTable[i]) 64 = i := by decide

theorem fpTable_getD_ipTable : ∀ i : Fin 64, fpTable.toList.getD (ipTable[i]) 64 = i := by decide

/-- Settles O5: each table, completed by what it omits or cut by what it repeats, is a rearrangement of a range. -/
theorem permutationTableProperties : Obligations.PermutationTableProperties := by
  obtain ⟨ipLt, ipCount⟩ := lt_and_count_of_perm_range ipTable_perm_range
  obtain ⟨fpLt, fpCount⟩ := lt_and_count_of_perm_range fpTable_perm_range
  obtain ⟨eLt, eCount⟩ := lt_and_count_of_perm_range_append eTable_perm_range_append_shared (by decide) (by decide)
  obtain ⟨pLt, pCount⟩ := lt_and_count_of_perm_range pTable_perm_range
  obtain ⟨pc1Lt, pc1Count⟩ := lt_and_count_of_append_perm_range pc1Table_append_parity_perm_range
  obtain ⟨pc2Lt, pc2Count⟩ := lt_and_count_of_append_perm_range pc2Table_append_omitted_perm_range
  exact ⟨ipCount, ipLt, fpCount, fpLt, ipTable_getD_fpTable, fpTable_getD_ipTable, eLt, eCount, pCount, pLt,
    pc1Lt, pc1Count, pc2Lt, pc2Count⟩

end Sys2Proof.Machine
end

section
/-!
CLAIM. The S-box array (rule R121): the shape of its tables, one lookup in sequence numbering, and the place of every lane's
output.
-/
namespace Sys2Proof.Machine

/-! ### The tables -/

/-- The eight tables in the order of the lanes they serve. -/
def sboxTables : List (List (List Nat)) := [sbox1, sbox2, sbox3, sbox4, sbox5, sbox6, sbox7, sbox8]

/-- 4 rows of 16 columns of 4-bit entries (rule R120). -/
structure IsSBox (box : List (List Nat)) : Prop where
  rows : box.length = 4
  columns : ∀ row ∈ box, row.length = 16
  entries : ∀ row ∈ box, ∀ entry ∈ row, entry < 16

theorem isSBox_sboxTables : ∀ box ∈ sboxTables, IsSBox box := by
  have rows : ∀ box ∈ sboxTables, box.length = 4 := by decide
  have columns : ∀ box ∈ sboxTables, ∀ row ∈ box, row.length = 16 := by decide
  have entries : ∀ box ∈ sboxTables, ∀ row ∈ box, ∀ entry ∈ row, entry < 16 := by decide
  exact fun box h => ⟨rows box h, columns box h, entries box h⟩

theorem isSBox_sboxTables_getD (g : Fin 8) : IsSBox (sboxTables.getD g []) := by
  have hg : g < sboxTables.length := g.isLt
  rw [List.getD_eq_getElem _ _ hg]
  exact isSBox_sboxTables _ (List.getElem_mem hg)

/-! ### One lookup -/

theorem seq_lane (x : Subkey) (g k : Nat) (hg : g < 8) (hk : k < 6) : seq (lane x g) k = seq x (6 * g + k) := by
  have hindex : 42 - 6 * g + (6 - 1 - k) = 48 - 1 - (6 * g + k) := by omega
  simp [seq, lane, BitVec.getMsbD_eq_getLsbD, hk, hindex, show 6 * g + k < 48 by omega, show 5 - k < 6 by omega]

theorem sboxRow_eq_seq (v : BitVec 6) : sboxRow v = 2 * (seq v 0).toNat + (seq v 5).toNat := rfl

/-- The earlier sequence bit is the more significant; checked on the 64 values of a lane. -/
theorem sboxCol_eq_seq (v : BitVec 6) :
    sboxCol v = 8 * (seq v 1).toNat + 4 * (seq v 2).toNat + 2 * (seq v 3).toNat + (seq v 4).toNat := by
  revert v
  decide

theorem sboxRow_lt (v : BitVec 6) : sboxRow v < 4 := by
  have h0 := Bool.toNat_lt (v.getLsbD 0)
  have h5 := Bool.toNat_lt (v.getLsbD 5)
  unfold sboxRow
  omega

theorem sboxCol_lt (v : BitVec 6) : sboxCol v < 16 := (v.extractLsb' 1 4).isLt

/-- Every lookup falls inside its table and the entry fits in 4 bits, so neither the default of the table read nor the
truncation is met. -/
theorem toNat_sboxLookup {box : List (List Nat)} (h : IsSBox box) (v : BitVec 6) (missing : Nat) :
    (sboxLookup box v).toNat = (box.getD (sboxRow v) []).getD (sboxCol v) missing := by
  obtain ⟨rows, columns, entries⟩ := h
  have hrow : sboxRow v < box.length := rows ▸ sboxRow_lt v
  have hmem : box[sboxRow v] ∈ box := List.getElem_mem hrow
  have hcol : sboxCol v < box[sboxRow v].length := columns _ hmem ▸ sboxCol_lt v
  rw [sboxLookup, List.getD_eq_getElem _ _ hrow, List.getD_eq_getElem _ _ hcol, List.getD_eq_getElem _ _ hcol,
    BitVec.toNat_ofNat, Nat.mod_eq_of_lt (entries _ hmem _ (List.getElem_mem hcol))]

/-! ### The eight lanes -/

/-- Eight 4-bit parts side by side, the first most significant: the field `[31-4g : 28-4g]` is part `g`, since the parts to its
right end below the field and those to its left begin above it. -/
theorem extractLsb'_append_nibbles (part : Fin 8 → BitVec 4) (g : Fin 8) :
    (part 0 ++ part 1 ++ part 2 ++ part 3 ++ part 4 ++ part 5 ++ part 6 ++ part 7).extractLsb' (28 - 4 * g) 4 = part g := by
  fin_cases g <;> simp [BitVec.extractLsb'_append_eq_of_le, BitVec.extractLsb'_append_eq_of_add_le, -Nat.reduceAdd]

theorem extractLsb'_sBoxes (x : Subkey) (g : Fin 8) :
    (sBoxes x).extractLsb' (28 - 4 * g) 4 = sboxLookup (sboxTables.getD g []) (lane x g) :=
  extractLsb'_append_nibbles (fun g => sboxLookup (sboxTables.getD g []) (lane x g)) g

/-- Settles O7: the field of a lane is its lookup, whose row and column are read off the lane's bits. -/
theorem sBoxLaneLookup : Obligations.SBoxLaneLookup := by
  intro x g b row col boxes
  have hrow : sboxRow (lane x g) = row := by
    rw [sboxRow_eq_seq, seq_lane x g 0 g.isLt (by decide), seq_lane x g 5 g.isLt (by decide)]
  have hcol : sboxCol (lane x g) = col := by
    rw [sboxCol_eq_seq, seq_lane x g 1 g.isLt (by decide), seq_lane x g 2 g.isLt (by decide),
      seq_lane x g 3 g.isLt (by decide), seq_lane x g 4 g.isLt (by decide)]
  rw [extractLsb'_sBoxes, toNat_sboxLookup (isSBox_sboxTables_getD g) _ 16, hrow, hcol]
  rfl

end Sys2Proof.Machine
end

section
/-!
CLAIM. The Feistel engine as a function (rules R103, R179, R180): IP and FP are inverse, running the rounds in the reverse order
undoes them, and with equal subkeys the order has no effect.
-/
namespace Sys2Proof.Machine

/-- Permuting by the one table and then by the other puts every bit back. -/
theorem permute_permute_of_inverse {n : Nat} (t u : Vector Nat n) (ht : ∀ i : Fin n, t[i] < n)
    (h : ∀ i : Fin n, u.toList.getD t[i] n = i) (v : BitVec n) : permute t (permute u v) = v :=
  seq_ext fun i hi => by
    have hti : t[i] < n := ht ⟨i, hi⟩
    have huti : u.toList.getD t[i] n = i := h ⟨i, hi⟩
    rw [List.getD_eq_getElem _ _ (by simpa using hti), Vector.getElem_toList] at huti
    rw [seq_permute _ _ _ hi, seq_permute _ _ _ hti, huti]

theorem permIP_permFP (v : Block) : permIP (permFP v) = v :=
  permute_permute_of_inverse ipTable fpTable (by decide) fpTable_getD_ipTable v

theorem permFP_permIP (v : Block) : permFP (permIP v) = v :=
  permute_permute_of_inverse fpTable ipTable (by decide) ipTable_getD_fpTable v

/-- A block command over an output block loads the halves that FP was given, which are swapped (rules R170, R177). -/
theorem initialHalves_finalBlock (ln rn : Half) : (initialL (finalBlock ln rn), initialR (finalBlock ln rn)) = (rn, ln) := by
  rw [initialL, initialR, finalBlock, permIP_permFP, BitVec.extractLsb'_append_eq_left, BitVec.extractLsb'_append_eq_right]

theorem finalBlock_swapped_initialHalves (block : Block) : finalBlock (initialR block) (initialL block) = block := by
  rw [finalBlock, initialL_append_initialR, permFP_permIP]

theorem runRounds_cons (sk : Vector Subkey 16) (j : Fin 16) (order : List (Fin 16)) (lr : Half × Half) :
    runRounds sk (j :: order) lr = runRounds sk order (feistelRound lr.1 lr.2 sk[j]) := rfl

theorem runRounds_concat (sk : Vector Subkey 16) (order : List (Fin 16)) (j : Fin 16) (lr : Half × Half) :
    runRounds sk (order ++ [j]) lr = feistelRound (runRounds sk order lr).1 (runRounds sk order lr).2 sk[j] :=
  List.foldl_append

/-- The rounds in reverse order, between two swaps, undo the rounds (rules R152, R179). -/
theorem runRounds_reverse (sk : Vector Subkey 16) (order : List (Fin 16)) (lr : Half × Half) :
    runRounds sk order.reverse (runRounds sk order lr).swap = lr.swap := by
  induction order generalizing lr with
  | nil => rfl
  | cons j order ih =>
    rw [runRounds_cons, List.reverse_cons, runRounds_concat, ih]
    exact feistelRound_swap lr sk[j]

/-- `Feistel` in the reverse order undoes `Feistel` (rules R179, R180). -/
theorem feistel_reverse (sk : Vector Subkey 16) (block : Block) (order : List (Fin 16)) :
    feistel sk (feistel sk block order) order.reverse = block := by
  have hswap : (runRounds sk order (initialL block, initialR block)).swap =
      (initialL (feistel sk block order), initialR (feistel sk block order)) :=
    (initialHalves_finalBlock _ _).symm
  have hback := runRounds_reverse sk order (initialL block, initialR block)
  rw [hswap] at hback
  rw [feistel, hback]
  exact finalBlock_swapped_initialHalves block

/-- With equal subkeys the order of the rounds has no effect. -/
theorem runRounds_replicate (k : Subkey) (order : List (Fin 16)) (lr : Half × Half) :
    runRounds (Vector.replicate 16 k) order lr = (fun lr => feistelRound lr.1 lr.2 k)^[order.length] lr := by
  simp only [runRounds, Fin.getElem_fin, Vector.getElem_replicate]
  exact List.foldl_const _ lr order

theorem feistel_replicate_reverse (k : Subkey) (block : Block) (order : List (Fin 16)) :
    feistel (Vector.replicate 16 k) block order.reverse = feistel (Vector.replicate 16 k) block order := by
  rw [feistel, feistel, runRounds_replicate, runRounds_replicate, List.length_reverse]

end Sys2Proof.Machine
end

section
/-!
CLAIM. The key schedule as a function (rules R131, R132, R135, R136): what a rotation does in sequence numbering, that
rotations accumulate, the complement law, and the weak keys.
-/
namespace Sys2Proof.Machine

/-! ### Rotations -/

/-- A rotation by `n` moves the bit at sequence index `i + n`, counted modulo 28, to index `i` (rules R10, R132). -/
theorem seq_rotl28 (v : KeyHalf) (n i : Nat) (hn : n ≤ 28) (hi : i < 28) :
    seq (rotl28 v n) i = seq v ((i + n) % 28) := by
  simp only [seq, rotl28, BitVec.getMsbD_or, BitVec.getMsbD_shiftLeft, BitVec.getMsbD_ushiftRight, hi, decide_true,
    Bool.true_and]
  by_cases hwrap : i + n < 28
  · have hlow : i < 28 - n := by omega
    simp [hlow, Nat.mod_eq_of_lt hwrap]
  · have hhigh : ¬ i < 28 - n := by omega
    have hindex : (i + n) % 28 = i - (28 - n) := by omega
    simp [hhigh, hindex, BitVec.getMsbD_of_ge v (i + n) (by omega)]

theorem shiftOf_le (j : Nat) : shiftOf j ≤ 2 := by
  have hentries : ∀ n ∈ shiftTable, n ≤ 2 := by decide
  rw [shiftOf]
  by_cases hj : j < shiftTable.length
  · rw [List.getD_eq_getElem _ _ hj]
    exact hentries _ (List.getElem_mem hj)
  · rw [List.getD_eq_default _ _ (by omega)]
    decide

/-- How far the first `n` rotations of a schedule have moved a half (rule R131). -/
def totalShift (n : Nat) : Nat := ((List.range n).map shiftOf).sum

theorem totalShift_succ (n : Nat) : totalShift (n + 1) = totalShift n + shiftOf n := by
  simp [totalShift, List.range_succ]

/-- Sixteen rotations are one full turn (rule R131). -/
theorem totalShift_sixteen : totalShift 16 = 28 := by decide

/-- A half that is rotated by `shiftOf 0`, `shiftOf 1`, ... in turn: both halves of a schedule are such (rule R132). -/
def RotatesInTurn (half : Nat → KeyHalf) : Prop := ∀ n, half (n + 1) = rotl28 (half n) (shiftOf n)

theorem rotatesInTurn_scheduleC (key : Block) : RotatesInTurn (scheduleC key) := fun _ => rfl

theorem rotatesInTurn_scheduleD (key : Block) : RotatesInTurn (scheduleD key) := fun _ => rfl

/-- Rotations accumulate (rule R132). -/
theorem RotatesInTurn.seq_eq {half : Nat → KeyHalf} (h : RotatesInTurn half) (n i : Nat) (hi : i < 28) :
    seq (half n) i = seq (half 0) ((i + totalShift n) % 28) := by
  induction n generalizing i with
  | zero => rw [totalShift, List.range_zero, List.map_nil, List.sum_nil, Nat.add_zero, Nat.mod_eq_of_lt hi]
  | succ n ih =>
    have hshift := shiftOf_le n
    rw [h n, seq_rotl28 _ _ _ (by omega) hi, ih _ (Nat.mod_lt _ (by decide)), totalShift_succ, Nat.mod_add_mod]
    congr 2
    omega

theorem RotatesInTurn.sixteen {half : Nat → KeyHalf} (h : RotatesInTurn half) : half 16 = half 0 :=
  seq_ext fun i hi => by rw [h.seq_eq 16 i hi, totalShift_sixteen, Nat.add_mod_right, Nat.mod_eq_of_lt hi]

/-- Settles O11: the amounts are read off the table, and sixteen rotations are one full turn of either half. -/
theorem rotationsAccumulateAndReturn : Obligations.RotationsAccumulateAndReturn :=
  ⟨by decide, totalShift_sixteen, fun v n i hn hi => seq_rotl28 v n i (by omega) hi,
    fun s => ⟨keygenEdge_C s, keygenEdge_D s⟩,
    fun key => ⟨(rotatesInTurn_scheduleC key).sixteen, (rotatesInTurn_scheduleD key).sixteen⟩⟩

/-- Where two halves start determines where they go. -/
theorem RotatesInTurn.congr {half half' : Nat → KeyHalf} (h : RotatesInTurn half) (h' : RotatesInTurn half')
    (h0 : half 0 = half' 0) (n : Nat) : half n = half' n := by
  induction n with
  | zero => exact h0
  | succ n ih => rw [h n, h' n, ih]

/-! ### Parity bits -/

theorem seq_and {n : Nat} (v w : BitVec n) (i : Nat) : seq (v &&& w) i = (seq v i && seq w i) := by
  simp [seq]

theorem seq_not_parityMask_pc1Table : ∀ i : Fin 56, seq (~~~parityMask) pc1Table[i] = true := by decide

/-- PC1 takes no parity bit (rules R72, R106). -/
theorem permPC1_and_not_parityMask (key : Block) : permPC1 (key &&& ~~~parityMask) = permPC1 key :=
  seq_ext fun i hi => by
    have hkept : seq (~~~parityMask) pc1Table[i] = true := seq_not_parityMask_pc1Table ⟨i, hi⟩
    rw [permPC1, permPC1, seq_permute _ _ _ hi, seq_permute _ _ _ hi, seq_and, hkept, Bool.and_true]

theorem permPC1_eq_of_parity_variants (key key' : Block) (h : key &&& ~~~parityMask = key' &&& ~~~parityMask) :
    permPC1 key = permPC1 key' := by
  rw [← permPC1_and_not_parityMask key, h, permPC1_and_not_parityMask]

/-! ### The complement law -/

theorem rotl28_not (v : KeyHalf) (n : Nat) (hn : n ≤ 28) : rotl28 (~~~v) n = ~~~rotl28 v n :=
  seq_ext fun i hi => by
    rw [seq_rotl28 _ _ _ hn hi, seq_not _ _ (Nat.mod_lt _ (by decide)), seq_not _ _ hi, seq_rotl28 _ _ _ hn hi]

/-- Two halves that start as complements of each other stay so. -/
theorem RotatesInTurn.not {half half' : Nat → KeyHalf} (h : RotatesInTurn half) (h' : RotatesInTurn half')
    (h0 : half' 0 = ~~~half 0) (n : Nat) : half' n = ~~~half n := by
  induction n with
  | zero => exact h0
  | succ n ih =>
    have hshift := shiftOf_le n
    rw [h n, h' n, ih, rotl28_not _ _ (by omega)]

/-- `BitVec.extractLsb'_not_of_lt` for a field that may reach the most significant bit, as `C` does in PC1. -/
theorem extractLsb'_not_of_le {w : Nat} (v : BitVec w) (start len : Nat) (h : start + len ≤ w) :
    (~~~v).extractLsb' start len = ~~~v.extractLsb' start len := by
  apply BitVec.eq_of_getLsbD_eq
  intro i hi
  simp [hi, show start + i < w by omega]

theorem initialC_not (key : Block) : initialC (~~~key) = ~~~initialC key := by
  rw [initialC, initialC, permPC1_not, extractLsb'_not_of_le _ _ _ (by decide)]

theorem initialD_not (key : Block) : initialD (~~~key) = ~~~initialD key := by
  rw [initialD, initialD, permPC1_not, extractLsb'_not_of_le _ _ _ (by decide)]

theorem subkeyOf_not (c d : KeyHalf) : subkeyOf (~~~c) (~~~d) = ~~~subkeyOf c d := by
  rw [subkeyOf, subkeyOf, ← BitVec.not_append, permPC2_not]

theorem scheduleEntry_not (key : Block) (j : Nat) : scheduleEntry (~~~key) j = ~~~scheduleEntry key j := by
  have hC := (rotatesInTurn_scheduleC key).not (rotatesInTurn_scheduleC (~~~key)) (initialC_not key) (j + 1)
  have hD := (rotatesInTurn_scheduleD key).not (rotatesInTurn_scheduleD (~~~key)) (initialD_not key) (j + 1)
  rw [scheduleEntry, scheduleEntry, hC, hD, subkeyOf_not]

/-! ### Keys with equal subkeys -/

/-- All 16 subkeys of the key are `k`. -/
def HasEqualSubkeys (key : Block) (k : Subkey) : Prop := schedule key = Vector.replicate 16 k

theorem hasEqualSubkeys_of_entries (key : Block) (k : Subkey) (h : ∀ j, scheduleEntry key j = k) :
    HasEqualSubkeys key k :=
  (eq_schedule_of_entries _ key fun j => by simp [h j]).symm

theorem HasEqualSubkeys.not {key : Block} {k : Subkey} (h : HasEqualSubkeys key k) :
    HasEqualSubkeys (~~~key) (~~~k) :=
  (eq_schedule_of_entries _ (~~~key) fun j => by
    rw [scheduleEntry_not, ← schedule_getElem, h]
    simp).symm

/-- Keys that differ only in parity bits have the same schedule (rule R72). -/
theorem schedule_eq_of_parity_variants (key key' : Block) (h : key &&& ~~~parityMask = key' &&& ~~~parityMask) :
    schedule key = schedule key' := by
  have hpc1 := permPC1_eq_of_parity_variants key key' h
  have hC := (rotatesInTurn_scheduleC key).congr (rotatesInTurn_scheduleC key') (congrArg (·.extractLsb' 28 28) hpc1)
  have hD := (rotatesInTurn_scheduleD key).congr (rotatesInTurn_scheduleD key') (congrArg (·.extractLsb' 0 28) hpc1)
  refine eq_schedule_of_entries _ key' fun j => ?_
  rw [schedule_getElem, scheduleEntry, scheduleEntry, hC, hD]

/-- All bits of the half are equal, so a rotation does not change it (rule R136). -/
def IsUniform (v : KeyHalf) : Prop := ∀ i < 28, seq v i = seq v 0

theorem IsUniform.rotl28_eq {v : KeyHalf} (h : IsUniform v) (n : Nat) (hn : n ≤ 28) : rotl28 v n = v :=
  seq_ext fun i hi => by rw [seq_rotl28 v n i hn hi, h _ (Nat.mod_lt _ (by decide)), h i hi]

theorem RotatesInTurn.eq_of_uniform {half : Nat → KeyHalf} (h : RotatesInTurn half) (hu : IsUniform (half 0)) (n : Nat) :
    half n = half 0 := by
  induction n with
  | zero => rfl
  | succ n ih =>
    have hshift := shiftOf_le n
    rw [h n, ih, hu.rotl28_eq _ (by omega)]

theorem hasEqualSubkeys_of_uniform (key : Block) (k : Subkey) (hC : IsUniform (initialC key))
    (hD : IsUniform (initialD key)) (hk : subkeyOf (initialC key) (initialD key) = k) : HasEqualSubkeys key k :=
  hasEqualSubkeys_of_entries key k fun j => by
    rw [scheduleEntry, (rotatesInTurn_scheduleC key).eq_of_uniform hC, (rotatesInTurn_scheduleD key).eq_of_uniform hD,
      scheduleC, scheduleD, hk]

theorem hasEqualSubkeys_zero : HasEqualSubkeys 0x0000000000000000#64 0x000000000000#48 :=
  hasEqualSubkeys_of_uniform _ _ (by unfold IsUniform; decide +kernel) (by unfold IsUniform; decide +kernel)
    (by decide +kernel)

theorem hasEqualSubkeys_1F1F1F1F0E0E0E0E : HasEqualSubkeys 0x1F1F1F1F0E0E0E0E#64 0x000000FFFFFF#48 :=
  hasEqualSubkeys_of_uniform _ _ (by unfold IsUniform; decide +kernel) (by unfold IsUniform; decide +kernel)
    (by decide +kernel)

/-- The complement of the key before (rule R136). -/
theorem hasEqualSubkeys_E0E0E0E0F1F1F1F1 : HasEqualSubkeys 0xE0E0E0E0F1F1F1F1#64 0xFFFFFF000000#48 :=
  hasEqualSubkeys_1F1F1F1F0E0E0E0E.not

theorem hasEqualSubkeys_FFFFFFFFFFFFFFFF : HasEqualSubkeys 0xFFFFFFFFFFFFFFFF#64 0xFFFFFFFFFFFF#48 :=
  hasEqualSubkeys_zero.not

theorem HasEqualSubkeys.of_parity_variant {key key' : Block} {k : Subkey} (h : HasEqualSubkeys key k)
    (hkey : key' &&& ~~~parityMask = key &&& ~~~parityMask) : HasEqualSubkeys key' k :=
  (schedule_eq_of_parity_variants key' key hkey).trans h

/-! ### Encryption over equal subkeys, and the weak keys -/

/-- A key with equal subkeys encrypts twice to the input (rule R136). -/
theorem HasEqualSubkeys.encryptBlock_encryptBlock {key : Block} {k : Subkey} (h : HasEqualSubkeys key k) (block : Block) :
    encryptBlock (schedule key) (encryptBlock (schedule key) block) = block := by
  rw [h, encryptBlock, ← feistel_replicate_reverse]
  exact feistel_reverse _ block forwardOrder

/-- Each of the four weak keys and of their parity variants has equal subkeys (rule R136). -/
theorem exists_hasEqualSubkeys_of_weak (key : Block)
    (h : key &&& ~~~parityMask ∈ [0x0000000000000000#64, 0xFFFFFFFFFFFFFFFF#64 &&& ~~~parityMask,
      0x1F1F1F1F0E0E0E0E#64 &&& ~~~parityMask, 0xE0E0E0E0F1F1F1F1#64 &&& ~~~parityMask]) :
    ∃ k, HasEqualSubkeys key k := by
  simp only [List.mem_cons, List.not_mem_nil, or_false] at h
  obtain h | h | h | h := h
  · exact ⟨_, hasEqualSubkeys_zero.of_parity_variant h⟩
  · exact ⟨_, hasEqualSubkeys_FFFFFFFFFFFFFFFF.of_parity_variant h⟩
  · exact ⟨_, hasEqualSubkeys_1F1F1F1F0E0E0E0E.of_parity_variant h⟩
  · exact ⟨_, hasEqualSubkeys_E0E0E0E0F1F1F1F1.of_parity_variant h⟩

/-- Settles O15: two keys have uniform halves, and the others are their complements and parity variants. -/
theorem scheduleCornerCases : Obligations.ScheduleCornerCases := by
  refine ⟨hasEqualSubkeys_zero, hasEqualSubkeys_zero.of_parity_variant (by decide), hasEqualSubkeys_FFFFFFFFFFFFFFFF,
    hasEqualSubkeys_FFFFFFFFFFFFFFFF.of_parity_variant (by decide), hasEqualSubkeys_1F1F1F1F0E0E0E0E,
    hasEqualSubkeys_E0E0E0E0F1F1F1F1, fun key j => ?_, fun key hweak => ?_⟩
  · rw [schedule_getElem, schedule_getElem, scheduleEntry_not]
  · obtain ⟨k, hk⟩ := exists_hasEqualSubkeys_of_weak key hweak
    exact ⟨⟨k, hk⟩, hk.encryptBlock_encryptBlock⟩

end Sys2Proof.Machine
end

section
/-!
CLAIM. The KEY transaction (rules R130, R133, R134, R135): its acceptance edge, one KEYGEN edge, the state after any number of
the 16 edges, and what a reset among them leaves.
-/
namespace Sys2Proof.Machine

/-! ### One KEYGEN edge -/

/-- A KEYGEN edge writes the subkey of its counter and no other (rule R133). -/
theorem keygenEdge_KS_get (s : State) (j : Fin 16) :
    (keygenEdge s).KS[j] =
      if j.val = s.ctr.toNat then subkeyOf (keygenEdge s).C (keygenEdge s).D else s.KS[j] := by
  rw [keygenEdge_KS, writeKS_get]
  simp only [Fin.ext_iff, ksIndex_val]
  rfl

/-- Settles O12: the step is the KEYGEN edge, before its last subkey or at it. -/
theorem keygenStepWritesOneSubkey : Obligations.KeygenStepWritesOneSubkey := by
  intro s p rest hin hs hr hst
  refine ⟨by simp [cmdReady, hst], keygenEdge (takeInput s), step_keygen s p rest hin hs hr hst, rfl, rfl,
    keygenEdge_KS_get (takeInput s), fun hc => ?_, fun hc => ?_, rfl, rfl, rfl, rfl, rfl, rfl, hs, rfl, ?_⟩
  · obtain ⟨hctr, hst', hkv⟩ := keygenEdge_advance (takeInput s) hc
    exact ⟨by rw [hctr]; exact ctr_succ_toNat s.ctr hc, hst', hkv⟩
  · obtain ⟨hctr, hst', hkv⟩ := keygenEdge_complete (takeInput s) hc
    exact ⟨hctr, hst', hkv, (cmdReady_eq_true _ _).2 ⟨hst', rfl⟩⟩
  · rw [keygenEdge_inputs, takeInput_inputs, hin, List.tail_cons]

/-! ### The edges after a KEY -/

/-- The acceptance edge of an offered command (rule R27). -/
theorem step_offers (i : Instr) (s : State) (p : Pins) (rest : List HostEvent) (hs : CanAccept s) (hp : Offers i p)
    (hin : s.inputs = .edge p :: rest) : step s = .next (afterExec i (takeInput s)) := by
  obtain ⟨hseen, hst⟩ := hs
  obtain ⟨hr, hv, rfl⟩ := hp
  exact step_accept s p rest hin hseen hr hst hv

/-- The core `t` after a KEY of `key` was accepted in `s` and `k` KEYGEN edges, of 16, have followed (rules R130, R133, R134). -/
structure AfterKeygenEdges (s : State) (key : Block) (k : Nat) (t : State) : Prop where
  C : t.C = scheduleC key k
  D : t.D = scheduleD key k
  entries : ∀ j : Fin 16, t.KS[j] = if j.val < k then scheduleEntry key j else s.KS[j]
  ctr : t.ctr = BitVec.ofNat 4 k
  st : t.st = if k = 16 then .idle else .keygen
  keyValid : t.keyValid = decide (k = 16)
  err : t.err = 0
  dout : t.dout = s.dout
  doutValid : t.doutValid = s.doutValid
  resetSeen : t.resetSeen = s.resetSeen

theorem afterKeygenEdges_zero (s : State) (key : Block) : AfterKeygenEdges s key 0 (acceptKey key (takeInput s)) := by
  constructor <;> simp [scheduleC, scheduleD]

/-- The next KEYGEN edge adds the next entry, and the 16th completes the schedule. -/
theorem AfterKeygenEdges.succ {s t : State} {key : Block} {k : Nat} (h : AfterKeygenEdges s key k t) (hk : k < 16) :
    AfterKeygenEdges s key (k + 1) (keygenEdge (takeInput t)) := by
  have hctr : t.ctr.toNat = k := by rw [h.ctr, BitVec.toNat_ofNat, Nat.mod_eq_of_lt hk]
  have hlast : t.ctr = 15 ↔ k + 1 = 16 := by
    rw [← BitVec.toNat_inj, hctr]
    exact Nat.succ_inj.symm
  have hC : (keygenEdge (takeInput t)).C = scheduleC key (k + 1) := by
    rw [keygenEdge_C, takeInput_C, takeInput_ctr, hctr, h.C, scheduleC]
  have hD : (keygenEdge (takeInput t)).D = scheduleD key (k + 1) := by
    rw [keygenEdge_D, takeInput_D, takeInput_ctr, hctr, h.D, scheduleD]
  refine
  { h with
    C := hC
    D := hD
    entries := fun j => ?_
    ctr := ?_
    st := by simp only [keygenEdge_st, takeInput_ctr, hlast]
    keyValid := ?_ }
  · rw [keygenEdge_KS_get, hC, hD, takeInput_ctr, hctr, takeInput_KS, h.entries]
    obtain hj | hj | hj := Nat.lt_trichotomy j.val k
    · rw [if_neg hj.ne, if_pos hj, if_pos (by omega)]
    · rw [if_pos hj, if_pos (by omega), hj, scheduleEntry]
    · rw [if_neg hj.ne', if_neg (by omega), if_neg (by omega)]
  · simp only [keygenEdge_ctr, takeInput_ctr, hlast]
    split
    case isTrue hdone => rw [hdone]; rfl
    case isFalse => rw [h.ctr, BitVec.ofNat_add]; rfl
  · simp only [keygenEdge_keyValid, takeInput_ctr, takeInput_keyValid, hlast, h.keyValid]
    split
    case isTrue hdone => rw [hdone]; rfl
    case isFalse hmore => simp [hmore, hk.ne]

theorem AfterKeygenEdges.run {s t : State} {key : Block} {k : Nat} (h : AfterKeygenEdges s key k t) (ps : List Pins)
    (rest : List HostEvent) (hr : NoReset ps) (hin : t.inputs = edges ps ++ rest) (hs : t.resetSeen = true)
    (hk : k + ps.length ≤ 16) :
    ∃ u, Sys2Proof.core.run ps.length t = .next u ∧ AfterKeygenEdges s key (k + ps.length) u ∧ u.inputs = rest := by
  induction ps generalizing t k with
  | nil => exact ⟨t, rfl, h, hin⟩
  | cons p ps ih =>
    obtain ⟨hrp, hrps⟩ := List.forall_mem_cons.1 hr
    rw [List.length_cons] at hk
    have hst : t.st = .keygen := by rw [h.st, if_neg (by omega)]
    have hstep := step_keygen t p (edges ps ++ rest) hin hs hrp hst
    obtain ⟨u, hrun, hu, hrest⟩ := ih (h.succ (by omega)) hrps (by simp [hin, edges]) hs (by omega)
    refine ⟨u, (run_succ_eq_next _ t u).2 ⟨_, hstep, hrun⟩, ?_, hrest⟩
    rwa [List.length_cons, Nat.add_comm ps.length, ← Nat.add_assoc]

/-- A KEY accepted and followed by at most 16 edges without a reset. -/
theorem run_key (s : State) (p : Pins) (ps : List Pins) (rest : List HostEvent) (key : Block) (hs : CanAccept s)
    (hp : Offers (.key key) p) (hlen : ps.length ≤ 16) (hr : NoReset ps) (hin : s.inputs = .edge p :: (edges ps ++ rest)) :
    ∃ t, Sys2Proof.core.run (ps.length + 1) s = .next t ∧ AfterKeygenEdges s key ps.length t ∧ t.inputs = rest := by
  have hstep := step_offers (.key key) s p _ hs hp hin
  obtain ⟨t, hrun, ht, hrest⟩ :=
    (afterKeygenEdges_zero s key).run ps rest hr (by simp [hin]) hs.1 (by omega)
  rw [Nat.zero_add] at ht
  exact ⟨t, (run_succ_eq_next _ s t).2 ⟨_, hstep, hrun⟩, ht, hrest⟩

/-- A busy core accepts no command (rule R27). -/
theorem acceptsNoCommand_of_busy (s : State) (hst : s.st ≠ .idle) : AcceptsNoCommand s := by
  intro i hk
  have hfit := stepKind_fits s
  rw [hk] at hfit
  obtain ⟨p, -, ha, -⟩ := hfit
  obtain ⟨-, -, hidle⟩ := (accepts_eq_true p s).1 ha
  exact hst hidle

/-- The fields of a command word decide its command (rules R70, R71). -/
theorem decode_append (op : BitVec 2) (data : Block) : decode (op ++ data) = decodeFields op data := by
  obtain ⟨hop, hdata⟩ := Laws.fields_of_assemble op data
  exact congrArg₂ decodeFields hop hdata

theorem acceptKey_eq_of_parity_variants (data data' : Block) (s : State)
    (h : data &&& ~~~parityMask = data' &&& ~~~parityMask) : acceptKey data s = acceptKey data' s := by
  simp only [acceptKey, initialC, initialD, permPC1_eq_of_parity_variants data data' h]

/-- Settles O10: the edges after the acceptance are the first `k` of the 16. -/
theorem keyStartsSchedule : Obligations.KeyStartsSchedule := by
  refine ⟨fun data => decode_append _ data, fun data s => rfl,
    fun data data' s h => congrArg Host.Outcome.next (acceptKey_eq_of_parity_variants data data' s h),
    fun data s c d => rfl, fun s _ hst => acceptsNoCommand_of_busy s hst, ?_, by decide +kernel, by decide +kernel⟩
  intro s p ps rest data hs hp hlen hr hin k hk
  have hsplit : edges ps ++ rest = edges (ps.take k) ++ (edges (ps.drop k) ++ rest) := by
    rw [← List.append_assoc, edges, edges, edges, ← List.map_append, List.take_append_drop]
  have hlenk : (ps.take k).length = k := by rw [List.length_take]; omega
  obtain ⟨t, hrun, ht, -⟩ := run_key s p (ps.take k) (edges (ps.drop k) ++ rest) data hs hp (by omega)
    (fun q hq => hr q (List.mem_of_mem_take hq)) (by rw [hin, hsplit])
  rw [hlenk] at hrun ht
  exact ⟨t, hrun, ht.keyValid, fun j => by rw [ht.entries, schedule_getElem]⟩

/-! ### A reset among the edges -/

/-- How many edges come before the first one with `rst` = 1. -/
def edgesBeforeReset (ps : List Pins) : Nat := (ps.takeWhile (!·.rst)).length

theorem edgesBeforeReset_cons (p : Pins) (ps : List Pins) (h : p.rst = false) :
    edgesBeforeReset (p :: ps) = edgesBeforeReset ps + 1 := by
  simp [edgesBeforeReset, h]

theorem edgesBeforeReset_le (ps : List Pins) : edgesBeforeReset ps ≤ ps.length :=
  (List.takeWhile_sublist _).length_le

theorem edgesBeforeReset_lt (ps : List Pins) (h : ∃ q ∈ ps, q.rst = true) : edgesBeforeReset ps < ps.length := by
  refine (edgesBeforeReset_le ps).lt_of_ne fun heq => ?_
  obtain ⟨q, hq, hrst⟩ := h
  have hall : ps.takeWhile (!·.rst) = ps := (List.takeWhile_sublist _).eq_of_length heq
  have hlow := List.takeWhile_eq_self_iff.1 hall q hq
  simp [hrst] at hlow

/-- No KEY can complete during the next edges: the one in progress meets a reset before its 16th KEYGEN edge, and for another
there are too few (rule R135). -/
structure CompletesNoKey (ps : List Pins) (rest : List HostEvent) (s : State) : Prop where
  inputs : s.inputs = edges ps ++ rest
  resetSeen : s.resetSeen = true
  keyValid : s.keyValid = false
  fewEdges : ps.length ≤ 16
  cutShort : s.st = .keygen → s.ctr.toNat + edgesBeforeReset ps < 16

/-- One of those edges, whatever it does, leaves the rest of them such edges. -/
theorem CompletesNoKey.step {p : Pins} {ps : List Pins} {rest : List HostEvent} {s : State}
    (h : CompletesNoKey (p :: ps) rest s) : ∃ t, step s = .next t ∧ CompletesNoKey ps rest t := by
  have hrest : (takeInput s).inputs = edges ps ++ rest := by simp [h.inputs, edges]
  have hfew : ps.length < 16 := h.fewEdges
  obtain ⟨-, -, hstep⟩ | ⟨-, -, hst, hstep⟩ | ⟨-, -, hst, hstep⟩ | ⟨hr, -, hst, hstep⟩ | ⟨-, -, hst, hstep⟩ :=
    edge_cases s p _ h.inputs h.resetSeen <;> refine ⟨_, hstep, ?_⟩
  · exact ⟨hrest, rfl, rfl, hfew.le, by simp⟩
  · obtain ⟨b, -, ha⟩ | ⟨b, -, hkv, -⟩ | ⟨b, -, hkv, -⟩ | ⟨-, -, e, -, ha⟩ := afterExec_cases (decode p.word) (takeInput s)
    · rw [ha]
      exact ⟨hrest, h.resetSeen, rfl, hfew.le, fun _ => by simpa using (edgesBeforeReset_le ps).trans_lt hfew⟩
    · simp [h.keyValid] at hkv
    · simp [h.keyValid] at hkv
    · rw [ha]
      exact ⟨hrest, h.resetSeen, h.keyValid, hfew.le, by simp [hst]⟩
  · exact ⟨hrest, h.resetSeen, h.keyValid, hfew.le, by simp [hst]⟩
  · have hcut := h.cutShort hst
    rw [edgesBeforeReset_cons p ps hr] at hcut
    have hc : s.ctr ≠ 15 := fun hc => by
      have hlast : s.ctr.toNat = 15 := by rw [hc]; rfl
      omega
    obtain ⟨hctr, -, hkv⟩ := keygenEdge_advance (takeInput s) hc
    refine ⟨hrest, h.resetSeen, hkv.trans h.keyValid, hfew.le, fun _ => ?_⟩
    rw [hctr, takeInput_ctr, ctr_succ_toNat _ hc]
    omega
  · exact ⟨hrest, h.resetSeen, h.keyValid, hfew.le, fun hst' => absurd hst' (roundEdge_st_ne_keygen _)⟩

theorem CompletesNoKey.run {ps : List Pins} {rest : List HostEvent} {s : State} (h : CompletesNoKey ps rest s) :
    ∃ t, Sys2Proof.core.run ps.length s = .next t ∧ t.keyValid = false := by
  induction ps generalizing s with
  | nil => exact ⟨s, rfl, h.keyValid⟩
  | cons p ps ih =>
    obtain ⟨u, hstep, hu⟩ := h.step
    obtain ⟨t, hrun, ht⟩ := ih hu
    exact ⟨t, (run_succ_eq_next _ s t).2 ⟨u, hstep, hrun⟩, ht⟩

/-- Settles O13: without a reset the transaction is all 16 KEYGEN edges, and with one it is cut short. -/
theorem keyTransactionLoadsSchedule : Obligations.KeyTransactionLoadsSchedule := by
  refine ⟨fun s p ps rest key hs hp hlen hr hin => ?_, fun s p ps rest key hs hp hlen hreset hin => ?_⟩
  · obtain ⟨t, hrun, ht, hrest⟩ := run_key s p ps rest key hs hp hlen.le hr hin
    rw [hlen] at hrun ht
    have hentries (j : Fin 16) : t.KS[j] = scheduleEntry key j := by rw [ht.entries, if_pos j.isLt]
    exact ⟨t, hrun, ht.keyValid, eq_schedule_of_entries _ key hentries, hentries, ht.st, ht.ctr, ht.err, ht.dout,
      ht.doutValid, hrest⟩
  · have hstep := step_offers (.key key) s p _ hs hp hin
    have hcut : CompletesNoKey ps rest (acceptKey key (takeInput s)) :=
      ⟨by simp [hin], hs.1, rfl, hlen.le, fun _ => by simpa [hlen] using edgesBeforeReset_lt ps hreset⟩
    obtain ⟨t, hrun, ht⟩ := hcut.run
    rw [hlen] at hrun
    exact ⟨t, (run_succ_eq_next _ s t).2 ⟨_, hstep, hrun⟩, ht⟩

end Sys2Proof.Machine
end

section
/-!
CLAIM. The round function (rules R150 to R153): `f` reads its arguments only through `E(Rh) ^ K`, which gives the complement law
and two arguments with the same value; the values of `f` are assembled from those of E, the S-boxes and P.
-/
namespace Sys2Proof.Machine

/-- `f` from its three stages: the keyed half, the S-box output and the permuted output (rule R150). -/
theorem roundF_eq_of_stages {rh : Half} {k x : Subkey} {s f : Half} (hx : permE rh ^^^ k = x) (hs : sBoxes x = s)
    (hf : permP s = f) : roundF rh k = f := by
  rw [roundF, hx, hs, hf]

/-- The complement law of `f` (rule R153): E commutes with complement and the key addition cancels it. -/
theorem roundF_not (rh : Half) (k : Subkey) : roundF (~~~rh) (~~~k) = roundF rh k := by
  have hkeyed : permE (~~~rh) ^^^ ~~~k = permE rh ^^^ k := by
    rw [permE_not, ← BitVec.not_xor_left, ← BitVec.not_xor_right, BitVec.not_not]
  rw [roundF, roundF, hkeyed]

/-! ### The values of rule R153, stage by stage -/

theorem sBoxes_zero : sBoxes 0x000000000000#48 = 0xEFA72C4D#32 := by decide

theorem roundF_zero_zero : roundF 0x00000000#32 0x000000000000#48 = 0xD8D8DBBC#32 :=
  roundF_eq_of_stages (by decide +kernel) sBoxes_zero (by decide +kernel)

theorem sBoxes_allOnes : sBoxes 0xFFFFFFFFFFFF#48 = 0xD9CE3DCB#32 := by decide

theorem roundF_zero_allOnes : roundF 0x00000000#32 0xFFFFFFFFFFFF#48 = 0x38DBF9CB#32 :=
  roundF_eq_of_stages (by decide +kernel) sBoxes_allOnes (by decide +kernel)

theorem roundF_allOnes_zero : roundF 0xFFFFFFFF#32 0x000000000000#48 = 0x38DBF9CB#32 :=
  (roundF_not 0x00000000#32 0xFFFFFFFFFFFF#48).trans roundF_zero_allOnes

theorem permE_example : permE 0xF0AAF0AA#32 = 0x7A15557A1555#48 := by decide +kernel

theorem keyedHalf_example : permE 0xF0AAF0AA#32 ^^^ 0x1B02EFFC7072#48 = 0x6117BA866527#48 := by
  rw [permE_example]
  decide

theorem sBoxes_example : sBoxes 0x6117BA866527#48 = 0x5C82B597#32 := by decide

theorem roundF_example : roundF 0xF0AAF0AA#32 0x1B02EFFC7072#48 = 0x234AA9BB#32 :=
  roundF_eq_of_stages keyedHalf_example sBoxes_example (by decide +kernel)

/-- Settles O8: the values stage by stage, and the complement law, which also carries the one mixed corner to the other. -/
theorem roundFunctionCornerCases : Obligations.RoundFunctionCornerCases :=
  ⟨roundF_zero_zero, sBoxes_zero, roundF_allOnes_zero, roundF_zero_allOnes, roundF_not, permE_example, keyedHalf_example,
    sBoxes_example, roundF_example⟩

/-! ### One round undone (rule R152) -/

/-- `Unround` adds the same `f(R, K)` once more. -/
theorem feistelUnround_feistelRound (l r : Half) (k : Subkey) :
    feistelUnround (feistelRound l r k).1 (feistelRound l r k).2 k = (l, r) := by
  rw [feistelRound, feistelUnround, BitVec.xor_assoc, BitVec.xor_self, BitVec.xor_zero]

/-- Settles O9: `Unround` and the swap form undo a round; by the complement law `f` takes one value at (0, 0) and at the pair
of all ones. -/
theorem roundIsInvertible : Obligations.RoundIsInvertible := by
  refine ⟨fun l r k => ⟨feistelUnround_feistelRound l r k, ?_⟩, ?_⟩
  · rw [feistelRound_swap (l, r) k, Prod.swap_swap]
  · exact ⟨0, ~~~0, 0, ~~~0, by decide, (roundF_not 0 0).symm⟩

end Sys2Proof.Machine
end

section
/-!
CLAIM. The block functions (rules R179, R180, R182): decryption runs the rounds of encryption in the reverse order, so each undoes
the other; complementing the subkeys and the halves complements every round.
-/
namespace Sys2Proof.Machine

/-! ### Decryption and encryption undo each other -/

theorem decryptBlock_encryptBlock (sk : Vector Subkey 16) (block : Block) :
    decryptBlock sk (encryptBlock sk block) = block :=
  feistel_reverse sk block forwardOrder

theorem encryptBlock_decryptBlock (sk : Vector Subkey 16) (block : Block) :
    encryptBlock sk (decryptBlock sk block) = block :=
  feistel_reverse sk block reverseOrder

theorem encryptBlock_bijective (sk : Vector Subkey 16) : Function.Bijective (encryptBlock sk) :=
  Function.bijective_iff_has_inverse.2 ⟨decryptBlock sk, decryptBlock_encryptBlock sk, encryptBlock_decryptBlock sk⟩

/-- Settles O21: over any subkey file each block function is the other's inverse. -/
theorem decryptionInvertsEncryption : Obligations.DecryptionInvertsEncryption :=
  ⟨fun _ block => ⟨decryptBlock_encryptBlock _ block, encryptBlock_decryptBlock _ block⟩, encryptBlock_bijective⟩

/-! ### The complement law -/

theorem initialL_not (block : Block) : initialL (~~~block) = ~~~initialL block := by
  rw [initialL, initialL, permIP_not, extractLsb'_not_of_le _ _ _ (by decide)]

theorem initialR_not (block : Block) : initialR (~~~block) = ~~~initialR block := by
  rw [initialR, initialR, permIP_not, extractLsb'_not_of_le _ _ _ (by decide)]

theorem finalBlock_not (ln rn : Half) : finalBlock (~~~ln) (~~~rn) = ~~~finalBlock ln rn := by
  rw [finalBlock, finalBlock, ← BitVec.not_append, permFP_not]

/-- `f` is the same on complements, so a round passes the complement on (rules R151, R153). -/
theorem feistelRound_not (l r : Half) (k : Subkey) :
    feistelRound (~~~l) (~~~r) (~~~k) = (~~~(feistelRound l r k).1, ~~~(feistelRound l r k).2) := by
  rw [feistelRound, feistelRound, roundF_not, BitVec.not_xor_left]

/-- Rounds over complemented subkeys keep complemented halves complemented. -/
theorem runRounds_not {sk sk' : Vector Subkey 16} (hsk : ∀ j : Fin 16, sk'[j] = ~~~sk[j]) (order : List (Fin 16))
    (lr : Half × Half) :
    runRounds sk' order (~~~lr.1, ~~~lr.2) = (~~~(runRounds sk order lr).1, ~~~(runRounds sk order lr).2) := by
  induction order generalizing lr with
  | nil => rfl
  | cons j order ih => rw [runRounds_cons, runRounds_cons, hsk, feistelRound_not, ih]

theorem feistel_not {sk sk' : Vector Subkey 16} (hsk : ∀ j : Fin 16, sk'[j] = ~~~sk[j]) (block : Block)
    (order : List (Fin 16)) : feistel sk' (~~~block) order = ~~~feistel sk block order := by
  have hrounds := runRounds_not hsk order (initialL block, initialR block)
  rw [feistel, feistel, initialL_not, initialR_not, hrounds, finalBlock_not]

/-- Settles O23: the complemented key has the complemented subkeys. -/
theorem complementation : Obligations.Complementation := fun key block =>
  feistel_not (fun j => by rw [schedule_getElem, schedule_getElem, scheduleEntry_not]) block forwardOrder

/-! ### The block function of a mode -/

theorem cryptBlock_eq_feistel (m : Mode) (sk : Vector Subkey 16) (block : Block) :
    cryptBlock m sk block = feistel sk block (orderOf m) := by
  cases m <;> rfl

/-- All 16 rounds of a mode give its block function (rules R177, R179). -/
theorem finalBlock_of_sixteen_rounds {m : Mode} {sk : Vector Subkey 16} {block : Block} {l r : Half}
    (h : (l, r) = runRounds sk ((orderOf m).take 16) (initialL block, initialR block)) :
    finalBlock l r = cryptBlock m sk block := by
  have hall : (orderOf m).take 16 = orderOf m := by cases m <;> rfl
  rw [hall] at h
  rw [cryptBlock_eq_feistel, feistel, ← h]

end Sys2Proof.Machine
end

section
/-!
CLAIM. The ROUND step (rules R174, R176, R177, R178), and the state after any number of the 16 ROUND edges of a block (rule R179).
-/
namespace Sys2Proof.Machine

/-! ### One ROUND edge -/

theorem readKS_eq_of_val (s : State) (i : BitVec 4) (j : Fin 16) (h : j.val = i.toNat) : readKS s i = s.KS[j] := by
  obtain rfl : ksIndex i = j := Fin.ext h.symm
  rfl

/-- Decryption takes the subkeys from the last to the first (rule R174). -/
theorem toNat_subkeyIndex_decrypt : ∀ i : BitVec 4, (subkeyIndex .decrypt i).toNat = 15 - i.toNat := by decide

/-- Settles O19: the step is the ROUND edge, before its last round or at it. -/
theorem roundStepRunsOneRound : Obligations.RoundStepRunsOneRound := by
  intro s p rest hin hs hr hst
  refine ⟨by simp [cmdReady, hst], roundEdge (takeInput s), readKS s (subkeyIndex s.mode s.ctr),
    step_round s p rest hin hs hr hst, fun j => ⟨fun hm hj => ?_, fun hm hj => ?_⟩, rfl, rfl,
    fun hc => ?_, fun hc => roundEdge_complete (takeInput s) hc, rfl, rfl, rfl, rfl, rfl, rfl, hs, rfl, ?_⟩
  · rw [hm]
    exact readKS_eq_of_val s _ j hj
  · rw [hm]
    exact readKS_eq_of_val s _ j (hj.trans (toNat_subkeyIndex_decrypt s.ctr).symm)
  · obtain ⟨hctr, hframe⟩ := roundEdge_advance (takeInput s) hc
    exact ⟨by rw [hctr]; exact ctr_succ_toNat s.ctr hc, hframe⟩
  · rw [roundEdge_inputs, takeInput_inputs, hin, List.tail_cons]

/-- Settles O24: with `rst` = 0 a busy core reads no other port, and with `rst` = 1 the step is the reset edge. -/
theorem onlyResetStopsABlock : Obligations.OnlyResetStopsABlock := by
  refine fun s p q rest hs hst => ⟨fun hp hq => ?_, fun hp => ⟨_, step_reset _ p rest rfl hp, rfl, rfl, rfl⟩⟩
  have hbusy : s.st ≠ .idle := by simp [hst]
  exact step_eq_of_no_acceptance { s with inputs := .edge q :: rest } _ q p rest rfl rfl rfl hs hq hp (.inl hbusy)

/-! ### The edges after an ENC or DEC that starts -/

/-- The core `t` after a block was started in `s` with `key_valid` = 1 and `k` ROUND edges, of 16, have followed (rules R170,
R171, R176, R177). -/
structure AfterRoundEdges (s : State) (m : Mode) (block : Block) (k : Nat) (t : State) : Prop where
  halves : (t.L, t.R) = runRounds s.KS ((orderOf m).take k) (initialL block, initialR block)
  mode : t.mode = m
  KS : t.KS = s.KS
  ctr : t.ctr = BitVec.ofNat 4 k
  st : t.st = if k = 16 then .idle else .round
  keyValid : t.keyValid = true
  err : t.err = 0
  dout : t.dout = if k = 16 then cryptBlock m s.KS block else s.dout
  doutValid : t.doutValid = decide (k = 16)
  resetSeen : t.resetSeen = true

theorem afterRoundEdges_zero (s : State) (m : Mode) (block : Block) (hs : s.resetSeen = true) (hk : s.keyValid = true) :
    AfterRoundEdges s m block 0 (startBlock m block (takeInput s)) := by
  constructor <;> simp [hs, hk, runRounds]

/-- The next ROUND edge runs the next round, and the 16th writes the output block. -/
theorem AfterRoundEdges.succ {s t : State} {m : Mode} {block : Block} {k : Nat} (h : AfterRoundEdges s m block k t)
    (hk : k < 16) : AfterRoundEdges s m block (k + 1) (roundEdge (takeInput t)) := by
  have hctr : t.ctr.toNat = k := by rw [h.ctr, BitVec.toNat_ofNat, Nat.mod_eq_of_lt hk]
  have hlast : t.ctr = 15 ↔ k + 1 = 16 := by
    rw [← BitVec.toNat_inj, hctr]
    exact Nat.succ_inj.symm
  have hhalves : nextHalves (takeInput t) =
      runRounds s.KS ((orderOf m).take (k + 1)) (initialL block, initialR block) := by
    have hround := roundEdge_runs_one_round (takeInput t) (initialL block, initialR block)
    simp only [takeInput_KS, takeInput_mode, takeInput_ctr, hctr, h.KS, h.mode] at hround
    exact hround h.halves
  refine
  { h with
    halves := hhalves
    ctr := ?_
    st := by simp only [roundEdge_st, takeInput_ctr, hlast]
    dout := ?_
    doutValid := ?_ }
  · simp only [roundEdge_ctr, takeInput_ctr, hlast]
    split
    case isTrue hdone => rw [hdone]; rfl
    case isFalse => rw [h.ctr, BitVec.ofNat_add]; rfl
  · simp only [roundEdge_dout, takeInput_ctr, takeInput_dout, hlast]
    split
    case isTrue hdone =>
      rw [hdone] at hhalves
      exact finalBlock_of_sixteen_rounds hhalves
    case isFalse => rw [h.dout, if_neg hk.ne]
  · simp only [roundEdge_doutValid, takeInput_ctr, takeInput_doutValid, hlast, h.doutValid]
    split
    case isTrue hdone => rw [hdone]; rfl
    case isFalse hmore => simp [hmore, hk.ne]

theorem AfterRoundEdges.run {s t : State} {m : Mode} {block : Block} {k : Nat} (h : AfterRoundEdges s m block k t)
    (ps : List Pins) (rest : List HostEvent) (hr : NoReset ps) (hin : t.inputs = edges ps ++ rest)
    (hk : k + ps.length ≤ 16) :
    ∃ u, Sys2Proof.core.run ps.length t = .next u ∧ AfterRoundEdges s m block (k + ps.length) u ∧ u.inputs = rest := by
  induction ps generalizing t k with
  | nil => exact ⟨t, rfl, h, hin⟩
  | cons p ps ih =>
    obtain ⟨hrp, hrps⟩ := List.forall_mem_cons.1 hr
    rw [List.length_cons] at hk
    have hst : t.st = .round := by rw [h.st, if_neg (by omega)]
    have hstep := step_round t p (edges ps ++ rest) hin h.resetSeen hrp hst
    obtain ⟨u, hrun, hu, hrest⟩ := ih (h.succ (by omega)) hrps (by simp [hin, edges]) (by omega)
    refine ⟨u, (run_succ_eq_next _ t u).2 ⟨_, hstep, hrun⟩, ?_, hrest⟩
    rwa [List.length_cons, Nat.add_comm ps.length, ← Nat.add_assoc]

end Sys2Proof.Machine
end

section
/-!
CLAIM. The commands ENC, DEC and RSVD (rules R170 to R173, R179, R181, R233). ENC and DEC differ only in the mode, so their
transaction is described once, over `blockCommand`.
-/
namespace Sys2Proof.Machine

/-! ### The transaction of a block command -/

/-- The command of a mode: ENC for encrypt, DEC for decrypt (rules R170, R171). -/
def blockCommand : Mode → Block → Instr
  | .encrypt => .enc
  | .decrypt => .dec

theorem afterExec_blockCommand (m : Mode) (block : Block) (s : State) :
    afterExec (blockCommand m block) s = acceptBlock m block s := by
  cases m <;> rfl

/-- A block command accepted with `key_valid` = 1 and followed by at most 16 edges without a reset. -/
theorem run_blockCommand (m : Mode) (s : State) (p : Pins) (ps : List Pins) (rest : List HostEvent) (block : Block)
    (hs : CanAccept s) (hkey : s.keyValid = true) (hp : Offers (blockCommand m block) p) (hlen : ps.length ≤ 16)
    (hr : NoReset ps) (hin : s.inputs = .edge p :: (edges ps ++ rest)) :
    ∃ t, Sys2Proof.core.run (ps.length + 1) s = .next t ∧ AfterRoundEdges s m block ps.length t ∧ t.inputs = rest := by
  have hstep := step_offers (blockCommand m block) s p _ hs hp hin
  rw [afterExec_blockCommand, acceptBlock_starts m block (takeInput s) hkey] at hstep
  obtain ⟨t, hrun, ht, hrest⟩ :=
    (afterRoundEdges_zero s m block hs.1 hkey).run ps rest hr (by simp [hin]) (by omega)
  rw [Nat.zero_add] at ht
  exact ⟨t, (run_succ_eq_next _ s t).2 ⟨_, hstep, hrun⟩, ht, hrest⟩

/-- The first `k` of some edges, and the others as inputs still to come. -/
theorem edges_append_eq_take_append (ps : List Pins) (rest : List HostEvent) (k : Nat) :
    edges ps ++ rest = edges (ps.take k) ++ (edges (ps.drop k) ++ rest) := by
  rw [← List.append_assoc, edges, edges, edges, ← List.map_append, List.take_append_drop]

/-- What a host sees `k` edges after the acceptance, of 16: `dout` keeps its old value until the last of them (rules R170,
R171). -/
theorem blockCommand_dout_at_last_edge (m : Mode) (s : State) (p : Pins) (ps : List Pins) (rest : List HostEvent)
    (block : Block) (hs : CanAccept s) (hkey : s.keyValid = true) (hp : Offers (blockCommand m block) p)
    (hlen : ps.length = 16) (hr : NoReset ps) (hin : s.inputs = .edge p :: (edges ps ++ rest)) (k : Nat) (hk : k ≤ 16) :
    ∃ t, Sys2Proof.core.run (k + 1) s = .next t ∧ t.keyValid = true ∧
      t.dout = if k = 16 then cryptBlock m s.KS block else s.dout := by
  have hlenk : (ps.take k).length = k := by rw [List.length_take]; omega
  obtain ⟨t, hrun, ht, -⟩ := run_blockCommand m s p (ps.take k) (edges (ps.drop k) ++ rest) block hs hkey hp (by omega)
    (fun q hq => hr q (List.mem_of_mem_take hq)) (by rw [hin, edges_append_eq_take_append ps rest k])
  rw [hlenk] at hrun ht
  exact ⟨t, hrun, ht.keyValid, ht.dout⟩

/-- All 16 edges complete the block (rule R179). -/
theorem blockCommand_completes (m : Mode) (s : State) (p : Pins) (ps : List Pins) (rest : List HostEvent)
    (block : Block) (hs : CanAccept s) (hkey : s.keyValid = true) (hp : Offers (blockCommand m block) p)
    (hlen : ps.length = 16) (hr : NoReset ps) (hin : s.inputs = .edge p :: (edges ps ++ rest)) :
    ∃ t, Sys2Proof.core.run 17 s = .next t ∧ t.dout = cryptBlock m s.KS block ∧ t.doutValid = true ∧ t.KS = s.KS ∧
      t.keyValid = true ∧ t.err = 0 ∧ t.st = .idle ∧ t.ctr = 0 ∧ t.inputs = rest := by
  obtain ⟨t, hrun, ht, hrest⟩ := run_blockCommand m s p ps rest block hs hkey hp hlen.le hr hin
  rw [hlen] at hrun ht
  exact ⟨t, hrun, ht.dout, ht.doutValid, ht.KS, ht.keyValid, ht.err, ht.st, ht.ctr, hrest⟩

/-- Settles O20: both commands, by the mode. -/
theorem blockTransactionComputesCipher : Obligations.BlockTransactionComputesCipher :=
  fun s p ps rest block hs hkey hlen hr hin =>
    ⟨fun hp => blockCommand_completes .encrypt s p ps rest block hs hkey hp hlen hr hin,
      fun hp => blockCommand_completes .decrypt s p ps rest block hs hkey hp hlen hr hin⟩

/-- Settles O22: both results are `EncryptBlock` over the one subkey file, which is injective. -/
theorem ecbResultDependsOnlyOnBlock : Obligations.EcbResultDependsOnlyOnBlock := by
  intro s s' p p' ps ps' rest rest' block block' hs hs' hkey hkey' hKS hp hp' hlen hlen' hr hr' hin hin'
  obtain ⟨t, hrun, hdout, -⟩ := blockCommand_completes .encrypt s p ps rest block hs hkey hp hlen hr hin
  obtain ⟨t', hrun', hdout', -⟩ := blockCommand_completes .encrypt s' p' ps' rest' block' hs' hkey' hp' hlen' hr' hin'
  refine ⟨t, t', hrun, hrun', ?_⟩
  rw [hdout, hdout', ← hKS]
  exact (encryptBlock_bijective s.KS).injective.eq_iff

/-! ### The acceptance edge, and the examples -/

/-- The example of rule R170 (KAT1). -/
theorem encryptBlock_example :
    encryptBlock (schedule 0x133457799BBCDFF1#64) 0x0123456789ABCDEF#64 = 0x85E813540F0AB405#64 := by
  decide +kernel

/-- The example of rule R171 is that of rule R170 undone. -/
theorem decryptBlock_example :
    decryptBlock (schedule 0x133457799BBCDFF1#64) 0x85E813540F0AB405#64 = 0x0123456789ABCDEF#64 := by
  rw [← encryptBlock_example, decryptBlock_encryptBlock]

/-- Settles O16: the edges after the acceptance are the first `k` of the 16. -/
theorem encStartsOrRaisesNokey : Obligations.EncStartsOrRaisesNokey :=
  ⟨fun data => decode_append _ data,
    fun data s hkey => congrArg Host.Outcome.next (acceptBlock_starts .encrypt data s hkey),
    fun data s hkey => congrArg Host.Outcome.next (acceptBlock_nokey .encrypt data s hkey),
    fun s _ hst => acceptsNoCommand_of_busy s hst,
    fun s p ps rest data hs hkey hp hlen hr hin =>
      blockCommand_dout_at_last_edge .encrypt s p ps rest data hs hkey hp hlen hr hin,
    encryptBlock_example⟩

/-- Settles O17: as for ENC, in the other mode. -/
theorem decStartsOrRaisesNokey : Obligations.DecStartsOrRaisesNokey :=
  ⟨fun data => decode_append _ data,
    fun data s hkey => congrArg Host.Outcome.next (acceptBlock_starts .decrypt data s hkey),
    fun data s hkey => congrArg Host.Outcome.next (acceptBlock_nokey .decrypt data s hkey),
    fun s _ hst => acceptsNoCommand_of_busy s hst,
    fun s p ps rest data hs hkey hp hlen hr hin =>
      blockCommand_dout_at_last_edge .decrypt s p ps rest data hs hkey hp hlen hr hin,
    decryptBlock_example⟩

/-- Settles O18: the acceptance edge of RSVD is `raiseError`, which leaves the core in IDLE. -/
theorem rsvdRaisesIllegal : Obligations.RsvdRaisesIllegal := by
  refine ⟨fun data => decode_append _ data, fun data s => rfl, fun s p rest data hs hp hin => ?_, rfl⟩
  refine ⟨_, step_offers (.rsvd data) s p rest hs hp hin, ?_, (cmdReady_eq_true _ _).2 ⟨hs.2, rfl⟩⟩
  rw [takeInput_cons s _ rest hin]
  rfl

end Sys2Proof.Machine
end

section
/-!
SUPPORT. The host's commands on the core (rules R204, R205, R208, R270): what one edge with the host's ports does, that every
wait ends in IDLE, and what a KEY and a block command that the host issues and waits for leave. The buffer operations are made
of these two.
-/
namespace Sys2Proof.Machine

/-! ### One edge with the host's ports -/

theorem clockWith_keygen (p : Pins) (s : State) (hs : s.resetSeen = true) (hr : p.rst = false) (hst : s.st = .keygen) :
    clockWith p s = .next (keygenEdge { s with inputs := [] }) :=
  step_keygen { s with inputs := [.edge p] } p [] rfl hs hr hst

theorem clockWith_round (p : Pins) (s : State) (hs : s.resetSeen = true) (hr : p.rst = false) (hst : s.st = .round) :
    clockWith p s = .next (roundEdge { s with inputs := [] }) :=
  step_round { s with inputs := [.edge p] } p [] rfl hs hr hst

/-- The ports of `Pins.offer` offer the command (rules R27, R70, R71). -/
theorem offers_offer (i : Instr) : Offers i (Pins.offer i) := by
  refine ⟨rfl, rfl, (decode_append i.opcode i.data).trans ?_⟩
  cases i <;> rfl

theorem clockWith_offer (i : Instr) (s : State) (hs : CanAccept s) :
    clockWith (Pins.offer i) s = .next (afterExec i { s with inputs := [] }) :=
  step_offers i { s with inputs := [.edge (Pins.offer i)] } (Pins.offer i) [] hs (offers_offer i) rfl

/-- An edge of a busy core brings it one edge nearer to IDLE, whatever command is offered (rules R25, R27). -/
theorem clockWith_busy (p : Pins) (s : State) (hs : s.resetSeen = true) (hr : p.rst = false) (hst : s.st ≠ .idle) :
    ∃ t, clockWith p s = .next t ∧ t.resetSeen = true ∧ busyFor t = busyFor s - 1 := by
  cases h : s.st with
  | idle => exact absurd h hst
  | keygen => exact ⟨_, clockWith_keygen p s hs hr h, hs, busyFor_keygenEdge { s with inputs := [] } h⟩
  | round => exact ⟨_, clockWith_round p s hs hr h, hs, busyFor_roundEdge { s with inputs := [] } h⟩

/-! ### The wait for `cmd_ready` -/

/-- A wait of at least `k` edges runs a countdown from `k` to its end: at `k` > 0 the core is busy and an edge leads to
`k - 1`, and at 0 it is idle. -/
theorem driveUntilReady_countdown {Countdown : Nat → State → Prop} (p : Pins) (hr : p.rst = false)
    (hidle : ∀ t, Countdown 0 t → t.st = .idle)
    (hbusy : ∀ k t, Countdown (k + 1) t → t.st ≠ .idle ∧ ∃ u, clockWith p t = .next u ∧ Countdown k u)
    (k n : Nat) (hk : k ≤ n) (s : State) (h : Countdown k s) :
    ∃ t, driveUntilReady p n s = .next t ∧ Countdown 0 t := by
  induction k generalizing n s with
  | zero => exact ⟨s, driveUntilReady_idle p n s hr (hidle s h), h⟩
  | succ k ih =>
    obtain ⟨n, rfl⟩ : ∃ n', n = n' + 1 := ⟨n - 1, by omega⟩
    obtain ⟨hst, u, hclock, hu⟩ := hbusy k s h
    obtain ⟨t, hwait, ht⟩ := ih n (by omega) u hu
    exact ⟨t, (driveUntilReady_busy p n s u hst hclock).trans hwait, ht⟩

/-- The bound of the wait suffices for every core that has been reset (rule R270). -/
theorem driveUntilReady_canAccept (p : Pins) (hr : p.rst = false) (s : State) (hs : s.resetSeen = true) :
    ∃ t, driveUntilReady p busyEdges s = .next t ∧ CanAccept t := by
  obtain ⟨t, hwait, ht, hbusy⟩ := driveUntilReady_countdown
    (Countdown := fun k t => t.resetSeen = true ∧ busyFor t = k) p hr
    (fun t ⟨_, hb⟩ => idle_of_busyFor_eq_zero t hb)
    (fun k t ⟨ht, hb⟩ => by
      have hst : t.st ≠ .idle := fun h => by simp [busyFor_of_idle t h] at hb
      obtain ⟨u, hclock, hu, hbu⟩ := clockWith_busy p t ht hr hst
      exact ⟨hst, u, hclock, hu, by omega⟩)
    (busyFor s) busyEdges (busyFor_le s) s ⟨hs, rfl⟩
  exact ⟨t, hwait, ht, idle_of_busyFor_eq_zero t hbusy⟩

/-- A command is issued to the idle core that the wait before it leaves; what remains is the wait after its acceptance. -/
theorem runCommand_eq_wait (i : Instr) (s t : State) (hwait : driveUntilReady (Pins.offer i) busyEdges s = .next t)
    (ht : CanAccept t) :
    runCommand i s = driveUntilReady Pins.quiet busyEdges (afterExec i { t with inputs := [] }) := by
  have hseen : (afterExec i { t with inputs := [] }).resetSeen = true := (afterExec_resetSeen i _).trans ht.1
  rw [runCommand, offerCommand, hwait, andThen_next, clockWith_offer i t ht, andThen_next, waitReady_of_reset _ hseen]

/-- The wait after a command that starts: its 16 steps, from the acceptance on, are a countdown from 16 (rule R270). -/
theorem driveUntilReady_sixteen_steps {After : Nat → State → Prop} (hidle : ∀ t, After 16 t → t.st = .idle)
    (hnext : ∀ k t, k < 16 → After k t → t.st ≠ .idle ∧ ∃ u, clockWith Pins.quiet t = .next u ∧ After (k + 1) u)
    (s : State) (h : After 0 s) : ∃ t, driveUntilReady Pins.quiet busyEdges s = .next t ∧ After 16 t := by
  obtain ⟨t, hwait, done, hdone, ht⟩ := driveUntilReady_countdown
    (Countdown := fun k t => ∃ done, done + k = 16 ∧ After done t) Pins.quiet rfl
    (fun t ⟨done, hdone, ht⟩ => by obtain rfl : done = 16 := hdone; exact hidle t ht)
    (fun k t ⟨done, hdone, ht⟩ => by
      obtain ⟨hst, u, hclock, hu⟩ := hnext done t (by omega) ht
      exact ⟨hst, u, hclock, done + 1, by omega, hu⟩)
    16 busyEdges le_rfl s ⟨0, rfl, h⟩
  obtain rfl : done = 16 := hdone
  exact ⟨t, hwait, ht⟩

/-! ### KEY -/

theorem AfterKeygenEdges.withInputs {s t : State} {key : Block} {k : Nat} (h : AfterKeygenEdges s key k t)
    (events : List HostEvent) : AfterKeygenEdges s key k { t with inputs := events } :=
  ⟨h.C, h.D, h.entries, h.ctr, h.st, h.keyValid, h.err, h.dout, h.doutValid, h.resetSeen⟩

/-- The wait after a KEY runs its 16 KEYGEN edges (rules R133, R134). -/
theorem driveUntilReady_acceptKey (key : Block) (s : State) (hs : s.resetSeen = true) :
    ∃ t, driveUntilReady Pins.quiet busyEdges (acceptKey key (takeInput s)) = .next t ∧ AfterKeygenEdges s key 16 t := by
  refine driveUntilReady_sixteen_steps (fun t h => h.st) (fun k t hk h => ?_) _ (afterKeygenEdges_zero s key)
  have hst : t.st = .keygen := by rw [h.st, if_neg hk.ne]
  exact ⟨by simp [hst], _, clockWith_keygen Pins.quiet t (h.resetSeen.trans hs) rfl hst,
    (h.withInputs [.edge Pins.quiet]).succ hk⟩

/-- An idle core that has been reset and holds a complete subkey file. -/
structure HoldsSubkeys (sk : Vector Subkey 16) (s : State) : Prop where
  canAccept : CanAccept s
  keyValid : s.keyValid = true
  KS : s.KS = sk

/-- KEY, issued and waited for on any core that has been reset, busy or not, loads the schedule (rules R135, R208). -/
theorem runCommand_key (key : Block) (s : State) (hs : s.resetSeen = true) :
    ∃ t, runCommand (.key key) s = .next t ∧ HoldsSubkeys (schedule key) t ∧ t.err = 0 := by
  obtain ⟨u, hwait, hu⟩ := driveUntilReady_canAccept (Pins.offer (.key key)) rfl s hs
  obtain ⟨t, hrun, ht⟩ := driveUntilReady_acceptKey key { u with inputs := [] } hu.1
  refine ⟨t, (runCommand_eq_wait _ s u hwait hu).trans hrun, ⟨⟨ht.resetSeen.trans hu.1, ht.st⟩, ht.keyValid, ?_⟩,
    ht.err⟩
  exact eq_schedule_of_entries t.KS key fun j => by rw [ht.entries, if_pos j.isLt]

/-! ### ENC and DEC -/

theorem AfterRoundEdges.withInputs {s t : State} {m : Mode} {block : Block} {k : Nat} (h : AfterRoundEdges s m block k t)
    (events : List HostEvent) : AfterRoundEdges s m block k { t with inputs := events } :=
  ⟨h.halves, h.mode, h.KS, h.ctr, h.st, h.keyValid, h.err, h.dout, h.doutValid, h.resetSeen⟩

/-- The wait after a block command that started runs its 16 ROUND edges (rules R176, R177). -/
theorem driveUntilReady_startBlock (m : Mode) (block : Block) (s : State) (hs : s.resetSeen = true)
    (hkey : s.keyValid = true) :
    ∃ t, driveUntilReady Pins.quiet busyEdges (startBlock m block (takeInput s)) = .next t ∧
      AfterRoundEdges s m block 16 t := by
  refine driveUntilReady_sixteen_steps (fun t h => h.st) (fun k t hk h => ?_) _ (afterRoundEdges_zero s m block hs hkey)
  have hst : t.st = .round := by rw [h.st, if_neg hk.ne]
  exact ⟨by simp [hst], _, clockWith_round Pins.quiet t h.resetSeen rfl hst,
    (h.withInputs [.edge Pins.quiet]).succ hk⟩

/-- A block command, issued and waited for on a core that holds subkeys, passes the host's check and leaves its block function's
result and the subkeys (rules R179, R208). -/
theorem runCommand_block (m : Mode) (block : Block) {sk : Vector Subkey 16} {s : State} (h : HoldsSubkeys sk s) :
    ∃ t, runCommand (blockCommand m block) s = .next t ∧ HoldsSubkeys sk t ∧ blockOk t = true ∧
      t.dout = cryptBlock m sk block := by
  obtain ⟨hs, hkey, hKS⟩ := h
  have hready : driveUntilReady (Pins.offer (blockCommand m block)) busyEdges s = .next s :=
    driveUntilReady_idle _ _ s rfl hs.2
  obtain ⟨t, hrun, ht⟩ := driveUntilReady_startBlock m block { s with inputs := [] } hs.1 hkey
  refine ⟨t, ?_, ⟨⟨ht.resetSeen, ht.st⟩, ht.keyValid, ht.KS.trans hKS⟩, by simp [blockOk, ht.err, ht.doutValid], ?_⟩
  · have hstarts := acceptBlock_starts m block { s with inputs := [] } hkey
    rw [runCommand_eq_wait _ s s hready hs, afterExec_blockCommand, hstarts]
    exact hrun
  · rw [ht.dout, if_pos rfl, hKS]

/-! ### The block loop and the key before it -/

/-- The loop over `n` blocks never fails on a core that holds subkeys, and returns the blocks' results in order (rules R204,
R205, R208). -/
theorem blockLoop_blockCommand (m : Mode) {sk : Vector Subkey 16} (n : Nat) (p : List Byte) {s : State}
    (h : HoldsSubkeys sk s) :
    ∃ t, blockLoop (blockCommand m) n p s = .next (t, .ok (mapBlocks (cryptBlock m sk) n p)) ∧ HoldsSubkeys sk t := by
  induction n generalizing p s with
  | zero => exact ⟨s, rfl, h⟩
  | succ n ih =>
    obtain ⟨u, hrun, hu, hok, hdout⟩ := runCommand_block m (blockOfBytes (p.take 8)) h
    obtain ⟨t, hloop, ht⟩ := ih (p.drop 8) hu
    refine ⟨t, ?_, ht⟩
    rw [blockLoop, hrun, andThen_next, if_pos hok, hloop, andThen_next, hdout]
    rfl

/-- On any core that has been reset a buffer operation goes on, after its KEY, with that key's schedule (rules R204, R205,
R208). -/
theorem withKey_next (k : List Byte) (s : State) (rest : State → DriverResult) (hs : s.resetSeen = true) :
    ∃ t, withKey k s rest = rest t ∧ HoldsSubkeys (schedule (keyOperand k)) t := by
  obtain ⟨t, hrun, ht, herr⟩ := runCommand_key (keyOperand k) s hs
  refine ⟨t, ?_, ht⟩
  rw [withKey, hrun, andThen_next, if_pos herr]

end Sys2Proof.Machine
end

section
/-!
CLAIM. The host's byte strings (rules R200, R202, R203): key normalization, padding, and unpadding, which undoes it.
-/
namespace Sys2Proof.Machine

/-! ### Keys -/

theorem normalizeKey_long (k : List Byte) (h : 8 ≤ k.length) : normalizeKey k = k.take 8 := if_pos h

theorem normalizeKey_short (k : List Byte) (h : k.length < 8) :
    normalizeKey k = k ++ List.replicate (8 - k.length) 0 := if_neg (by omega)

/-- Settles O47: the two branches of the normalization, each on its example too. -/
theorem keyNormalization : Obligations.KeyNormalization :=
  ⟨fun k => ⟨normalizeKey_length k, normalizeKey_long k, normalizeKey_short k⟩, normalizeKey_short _ (by decide),
    normalizeKey_short _ (by decide), normalizeKey_long _ (by decide)⟩

/-! ### Padding -/

/-- The padded length is the next multiple of 8 after the length. -/
theorem pad_length_eq (m : List Byte) : (pad m).length = 8 * (m.length / 8 + 1) := by
  rw [pad_length, padCount]
  omega

/-- Settles O48: with `r` the model's count, the padded length is the next multiple of 8. -/
theorem padAppendsItsCount : Obligations.PadAppendsItsCount := by
  intro m
  obtain ⟨hone, height⟩ := padCount_range m
  refine ⟨padCount m, hone, height, rfl, fun h => by rw [padCount, h], rfl, ?_⟩
  rw [pad_length_eq]
  exact ⟨by omega, by omega, fun n hlt hn => by omega⟩

/-! ### Unpadding -/

/-- Only the trailing byte is read (rule R203). -/
theorem unpad_concat (body : List Byte) (r : Byte) :
    unpad (body ++ [r]) = if r = 0 ∨ 8 < r.toNat then .error .corruptedPadding
      else .ok ((body ++ [r]).take ((body ++ [r]).length - r.toNat)) := by
  rw [unpad, List.getLast?_concat]

theorem unpad_concat_corrupted (body : List Byte) (r : Byte) (h : r.toNat = 0 ∨ 8 < r.toNat) :
    unpad (body ++ [r]) = .error .corruptedPadding := by
  rw [unpad_concat, if_pos (h.imp_left BitVec.eq_of_toNat_eq)]

theorem unpad_concat_valid (body : List Byte) (r : Byte) (hone : 1 ≤ r.toNat) (height : r.toNat ≤ 8) :
    unpad (body ++ [r]) = .ok ((body ++ [r]).take ((body ++ [r]).length - r.toNat)) := by
  rw [unpad_concat, if_neg]
  rintro (rfl | h)
  · exact absurd hone (by decide)
  · omega

/-- Settles O49: a nonempty buffer whose length is a multiple of 8 has at least the 8 bytes that may be dropped. -/
theorem unpadReadsTrailingByte : Obligations.UnpadReadsTrailingByte := by
  refine ⟨rfl, fun body r hlen => ⟨unpad_concat_corrupted body r, fun hone height =>
    ⟨?_, unpad_concat_valid body r hone height⟩⟩⟩
  rw [List.length_append, List.length_singleton] at hlen ⊢
  omega

/-- `Pad` leaves its own count as the trailing byte, so `Unpad` drops what it appended (rule R210). -/
theorem unpad_pad (m : List Byte) : unpad (pad m) = .ok m := by
  obtain ⟨hone, height⟩ := padCount_range m
  have hbyte : (BitVec.ofNat 8 (padCount m)).toNat = padCount m := by
    rw [BitVec.toNat_ofNat, Nat.mod_eq_of_lt (by omega)]
  have hlast : pad m = m ++ List.replicate (padCount m - 1) (BitVec.ofNat 8 (padCount m)) ++
      [BitVec.ofNat 8 (padCount m)] := by
    rw [List.append_assoc, ← List.replicate_succ', Nat.sub_add_cancel hone, pad]
  have hunpad : unpad (pad m) = .ok ((pad m).take ((pad m).length - padCount m)) := by
    rw [hlast, unpad_concat_valid _ _ (by omega) (by omega), hbyte]
  rw [hunpad, pad_length, Nat.add_sub_cancel, pad, List.take_left]

end Sys2Proof.Machine
end

section
/-!
CLAIM. The buffer operations (rules R204 to R206, R210, R211): the pure functions undo each other and have the stated boundary
values; the driver on the core returns what they return.
-/
namespace Sys2Proof.Machine

/-! ### The buffer functions -/

/-- A block function undone block by block. -/
theorem mapBlocks_mapBlocks_of_leftInverse {f g : Block → Block} (h : Function.LeftInverse g f) (n : Nat) (p : List Byte)
    (hlen : p.length = 8 * n) : mapBlocks g n (mapBlocks f n p) = p := by
  induction n generalizing p with
  | zero => exact (List.length_eq_zero_iff.1 hlen).symm
  | succ n ih =>
    have hfirst : (p.take 8).length = 8 := by rw [List.length_take]; omega
    have hothers : (p.drop 8).length = 8 * n := by rw [List.length_drop]; omega
    rw [mapBlocks, mapBlocks, List.take_left' (bytesOfBlock_length _), List.drop_left' (bytesOfBlock_length _),
      blockOfBytes_bytesOfBlock, h, bytesOfBlock_blockOfBytes _ hfirst, ih _ hothers, List.take_append_drop]

/-- All blocks of a padded buffer are whole. -/
theorem pad_length_div (m : List Byte) : 8 * ((pad m).length / 8) = (pad m).length := by
  rw [pad_length_eq]
  omega

theorem encryptBuffer_length (m k : List Byte) : (encryptBuffer m k).length = (pad m).length := by
  rw [encryptBuffer, mapBlocks_length, pad_length_div]

theorem encryptBuffer_aligned (m k : List Byte) : (encryptBuffer m k).length % 8 = 0 := by
  rw [encryptBuffer_length, pad_length_eq, Nat.mul_mod_right]

theorem decryptBuffer_aligned (c k : List Byte) (h : c.length % 8 = 0) :
    decryptBuffer c k = unpad (mapBlocks (decryptBlock (schedule (keyOperand k))) (c.length / 8) c) := if_neg (by omega)

theorem decryptBuffer_unaligned (c k : List Byte) (h : c.length % 8 ≠ 0) :
    decryptBuffer c k = .error .notBlockAligned := if_pos h

/-- The pure round trip (rule R210): every block round-trips, and `Unpad` undoes `Pad`. -/
theorem decryptBuffer_encryptBuffer (m k : List Byte) : decryptBuffer (encryptBuffer m k) k = .ok m := by
  rw [decryptBuffer_aligned _ _ (encryptBuffer_aligned m k), encryptBuffer_length, encryptBuffer,
    mapBlocks_mapBlocks_of_leftInverse (decryptBlock_encryptBlock _) _ _ (pad_length_div m).symm, unpad_pad]

/-- A buffer of one block. -/
theorem mapBlocks_one (f : Block → Block) (p : List Byte) (h : p.length = 8) :
    mapBlocks f 1 p = bytesOfBlock (f (blockOfBytes p)) := by
  rw [mapBlocks, mapBlocks, List.append_nil, List.take_of_length_le h.le]

theorem encryptBuffer_nil (k : List Byte) :
    encryptBuffer [] k = bytesOfBlock (encryptBlock (schedule (keyOperand k)) 0x0808080808080808#64) :=
  have hblock : blockOfBytes (pad []) = 0x0808080808080808#64 := by decide
  hblock ▸ mapBlocks_one _ (pad []) rfl

/-- Settles O54: the empty buffer is padded to one block, a 13-byte buffer to two, and an empty ciphertext has no trailing
byte. -/
theorem bufferBoundaries : Obligations.BufferBoundaries := by
  refine ⟨fun k => ⟨encryptBuffer_nil k, decryptBuffer_encryptBuffer [] k⟩, fun m k hlen => ⟨?_, ?_⟩, fun k => rfl⟩
  · rw [encryptBuffer_length, pad_length_eq, hlen]
  · rw [pad, padCount, hlen]
    rfl

/-! ### The driver on the core -/

/-- Settles O52: the check comes before any command. -/
theorem unalignedCiphertextRejected : Obligations.UnalignedCiphertextRejected :=
  fun c k s h => ⟨driverDecrypt_unaligned c k s h, decryptBuffer_unaligned c k h⟩

/-- `Encrypt` without its KEY, on a core that holds the key's schedule (rules R204, R209). -/
theorem driverEncryptLoaded_next (m k : List Byte) {s : State} (h : HoldsSubkeys (schedule (keyOperand k)) s) :
    ∃ t, driverEncryptLoaded m s = .next (t, .ok (encryptBuffer m k)) ∧ HoldsSubkeys (schedule (keyOperand k)) t :=
  blockLoop_blockCommand .encrypt ((pad m).length / 8) (pad m) h

/-- `Encrypt` on any core that has been reset returns the pure function's bytes (rules R204, R208). -/
theorem driverEncrypt_next (m k : List Byte) (s : State) (hs : s.resetSeen = true) :
    ∃ t, driverEncrypt m k s = .next (t, .ok (encryptBuffer m k)) ∧ HoldsSubkeys (schedule (keyOperand k)) t := by
  obtain ⟨u, hkey, hu⟩ := withKey_next k s (driverEncryptLoaded m) hs
  obtain ⟨t, hloaded, ht⟩ := driverEncryptLoaded_next m k hu
  exact ⟨t, hkey.trans hloaded, ht⟩

/-- `Decrypt` of an aligned buffer without its KEY, on a core that holds the key's schedule (rules R205, R209). -/
theorem decryptAligned_next (c k : List Byte) (hc : c.length % 8 = 0) {s : State}
    (h : HoldsSubkeys (schedule (keyOperand k)) s) :
    ∃ t, decryptAligned c s = .next (t, decryptBuffer c k) ∧ HoldsSubkeys (schedule (keyOperand k)) t := by
  obtain ⟨t, hloop, ht⟩ := blockLoop_blockCommand .decrypt (c.length / 8) c h
  refine ⟨t, ?_, ht⟩
  rw [decryptBuffer_aligned c k hc]
  exact congrArg (andThen · _) hloop

/-- `Decrypt` of an aligned buffer on any core that has been reset returns the pure function's answer (rules R205, R208). -/
theorem driverDecrypt_next (c k : List Byte) (s : State) (hs : s.resetSeen = true) (hc : c.length % 8 = 0) :
    ∃ t, driverDecrypt c k s = .next (t, decryptBuffer c k) ∧ HoldsSubkeys (schedule (keyOperand k)) t := by
  obtain ⟨u, hkey, hu⟩ := withKey_next k s (decryptAligned c) hs
  obtain ⟨t, hloaded, ht⟩ := decryptAligned_next c k hc hu
  exact ⟨t, (driverDecrypt_aligned c k s hc).trans (hkey.trans hloaded), ht⟩

/-- Settles O53: on the core each call returns what the pure functions return, and those undo each other. -/
theorem bufferRoundTrip : Obligations.BufferRoundTrip := by
  intro m k s hs
  obtain ⟨t, hencrypt, ht⟩ := driverEncrypt_next m k s hs
  obtain ⟨u, hdecrypt, -⟩ := driverDecrypt_next (encryptBuffer m k) k t ht.canAccept.1 (encryptBuffer_aligned m k)
  rw [decryptBuffer_encryptBuffer] at hdecrypt
  exact ⟨t, u, encryptBuffer m k, hencrypt, hdecrypt⟩

end Sys2Proof.Machine
end

section
/-!
CLAIM. What leaves the core as it was, and what unsettles it without an edge (rule R244): an idle edge, a stopped clock, a loss
of power.
-/
namespace Sys2Proof.Machine

/-- The clock stands still: the event passes and nothing else happens (rule R244, log entry 15). -/
theorem step_clkStopped (s : State) (rest : List HostEvent) (hin : s.inputs = .clkStopped :: rest) :
    step s = .next (takeInput s) := by
  rw [step, stepKind, currentEvent_cons s _ rest hin]
  rfl

/-- Power goes and comes back: the core is as before its first reset (rule R244, log entry 15). -/
theorem step_powerCycle (s : State) (rest : List HostEvent) (hin : s.inputs = .powerCycle :: rest) :
    step s = .next (unresetCore (takeInput s)) := by
  rw [step, stepKind, currentEvent_cons s _ rest hin]
  rfl

/-- Settles O27: an idle edge and a stopped clock only consume the input, and a loss of power draws an unreset core. -/
theorem idleAndStoppedClockKeepState : Obligations.IdleAndStoppedClockKeepState := by
  refine ⟨fun s p rest hin hs hr hst hv => ?_, fun s rest hin => ?_, fun s rest hin => ?_⟩
  · rw [step_idle s p rest hin hs hr hst hv, takeInput_cons s _ rest hin]
  · rw [step_clkStopped s rest hin, takeInput_cons s _ rest hin]
  · exact ⟨_, step_powerCycle s rest hin, unresetCore_resetSeen _, by simp [hin]⟩

end Sys2Proof.Machine
end

section
/-!
CLAIM. How long a command occupies the core, edge by edge (rule R270).
-/
namespace Sys2Proof.Machine

/-- The first `k` of some edges without a reset, before the inputs that are left. -/
theorem exists_first_edges (ps : List Pins) (rest : List HostEvent) (hr : NoReset ps) (k : Nat) (hk : k ≤ ps.length) :
    ∃ (qs : List Pins) (rest' : List HostEvent), qs.length = k ∧ NoReset qs ∧ edges ps ++ rest = edges qs ++ rest' :=
  ⟨ps.take k, edges (ps.drop k) ++ rest, List.length_take_of_le hk, fun q hq => hr q (List.mem_of_mem_take hq),
    edges_append_eq_take_append ps rest k⟩

/-- A core that is idle after the last of its edges and busy before it shows just that on `cmd_ready` (rule R28). -/
theorem cmdReady_of_busy_until (t : State) (busy : ControlState) (hbusy : busy ≠ .idle) (last : Prop) [Decidable last]
    (h : t.st = if last then .idle else busy) : cmdReady false t = decide last := by
  by_cases hlast : last <;> simp [cmdReady, h, hlast, hbusy]

/-- What the host sees `k` edges after the acceptance of a KEY (rule R270). -/
theorem key_occupancy (s : State) (p : Pins) (ps : List Pins) (rest : List HostEvent) (key : Block) (hs : CanAccept s)
    (hp : Offers (.key key) p) (hlen : ps.length = 16) (hr : NoReset ps) (hin : s.inputs = .edge p :: (edges ps ++ rest))
    (k : Nat) (hk : k ≤ 16) :
    ∃ t, Sys2Proof.core.run (k + 1) s = .next t ∧ cmdReady false t = decide (k = 16) ∧ t.err = 0 ∧
      t.keyValid = decide (k = 16) := by
  obtain ⟨qs, rest', rfl, hrq, hsplit⟩ := exists_first_edges ps rest hr k (hlen ▸ hk)
  rw [hsplit] at hin
  obtain ⟨t, hrun, ht, -⟩ := run_key s p qs rest' key hs hp hk hrq hin
  exact ⟨t, hrun, cmdReady_of_busy_until t .keygen (by decide) _ ht.st, ht.err, ht.keyValid⟩

/-- What the host sees `k` edges after the acceptance of a block command that starts (rule R270). -/
theorem blockCommand_occupancy (m : Mode) (s : State) (p : Pins) (ps : List Pins) (rest : List HostEvent) (block : Block)
    (hs : CanAccept s) (hkey : s.keyValid = true) (hp : Offers (blockCommand m block) p) (hlen : ps.length = 16)
    (hr : NoReset ps) (hin : s.inputs = .edge p :: (edges ps ++ rest)) (k : Nat) (hk : k ≤ 16) :
    ∃ t, Sys2Proof.core.run (k + 1) s = .next t ∧ cmdReady false t = decide (k = 16) ∧ t.err = 0 ∧
      t.doutValid = decide (k = 16) ∧ (k = 16 → t.dout = cryptBlock m s.KS block) := by
  obtain ⟨qs, rest', rfl, hrq, hsplit⟩ := exists_first_edges ps rest hr k (hlen ▸ hk)
  rw [hsplit] at hin
  obtain ⟨t, hrun, ht, -⟩ := run_blockCommand m s p qs rest' block hs hkey hp hk hrq hin
  exact ⟨t, hrun, cmdReady_of_busy_until t .round (by decide) _ ht.st, ht.err, ht.doutValid,
    fun hlast => ht.dout.trans (if_pos hlast)⟩

/-- A command that does not start only writes `err` (rules R231, R232, R233). -/
theorem afterExec_of_not_starts (i : Instr) (s : State) (h : ¬Starts i s) : ∃ e, afterExec i s = raiseError e s := by
  obtain ⟨b, rfl, -⟩ | ⟨b, rfl, hkey, -⟩ | ⟨b, rfl, hkey, -⟩ | ⟨-, -, e, -, he⟩ := afterExec_cases i s
  · exact absurd trivial h
  · exact absurd hkey h
  · exact absurd hkey h
  · exact ⟨e, he⟩

/-- Settles O39: a KEY or block that starts is described edge by edge, and any other command is over at its acceptance. -/
theorem startedCommandOccupiesSeventeenEdges : Obligations.StartedCommandOccupiesSeventeenEdges := by
  intro s i p ps rest hs hp hlen hr hin
  refine ⟨fun hstarts k hk => ?_, fun hno => ?_⟩
  · cases i with
    | key key => exact key_occupancy s p ps rest key hs hp hlen hr hin k hk
    | enc block => exact blockCommand_occupancy .encrypt s p ps rest block hs hstarts hp hlen hr hin k hk
    | dec block => exact blockCommand_occupancy .decrypt s p ps rest block hs hstarts hp hlen hr hin k hk
    | rsvd data => exact hstarts.elim
  · have hstep := step_offers i s p _ hs hp hin
    obtain ⟨e, he⟩ := afterExec_of_not_starts i (takeInput s) hno
    refine ⟨_, (run_succ_eq_next 0 s _).2 ⟨_, hstep, rfl⟩, ?_, ?_⟩
    · rw [he]
      exact (cmdReady_eq_true _ _).2 ⟨hs.2, rfl⟩
    · rw [afterExec_err]
      cases i with
      | key key => rfl
      | enc block => exact if_neg hno
      | dec block => exact if_neg hno
      | rsvd data => rfl

end Sys2Proof.Machine
end

section
/-!
CLAIM. A reset edge, what comes before the first one, and the first commands after it (rules R260, R261, R263, R264).
-/
namespace Sys2Proof.Machine

/-! ### A reset edge -/

theorem specifiedResetValues_resetEdge (s : State) : SpecifiedResetValues (resetEdge s) :=
  ⟨rfl, rfl, rfl, rfl, rfl, rfl, rfl⟩

/-- A reset edge in any state (rules R38, R260). -/
theorem step_reset_specified (s : State) (p : Pins) (rest : List HostEvent) (hin : s.inputs = .edge p :: rest)
    (hr : p.rst = true) : ∃ t, step s = .next t ∧ SpecifiedResetValues t ∧ t.inputs = rest :=
  ⟨_, step_reset s p rest hin hr, specifiedResetValues_resetEdge _, by simp [hin]⟩

theorem SpecifiedResetValues.canAccept {s : State} (h : SpecifiedResetValues s) : CanAccept s := by
  obtain ⟨hst, -, -, -, -, -, hseen⟩ := h
  exact ⟨hseen, hst⟩

/-- The outputs of rule R261. -/
theorem SpecifiedResetValues.outputs {s : State} (h : SpecifiedResetValues s) :
    Machine.outputs false s = { cmdReady := true, dout := 0, doutValid := false, keyValid := false, err := 0 } := by
  obtain ⟨hst, -, hkv, hdout, hdv, herr, -⟩ := h
  simp [Machine.outputs, cmdReady, hst, hkv, hdout, hdv, herr]

/-- Each of some reset edges leaves the reset values, so the last one does; without any, the state itself must have them. -/
theorem run_reset_edges (s : State) (ps : List Pins) (rest : List HostEvent) (hr : ∀ p ∈ ps, p.rst = true)
    (hin : s.inputs = edges ps ++ rest) (h : ps = [] → SpecifiedResetValues s) :
    ∃ t, Sys2Proof.core.run ps.length s = .next t ∧ SpecifiedResetValues t ∧ t.inputs = rest := by
  induction ps generalizing s with
  | nil => exact ⟨s, rfl, h rfl, hin⟩
  | cons p ps ih =>
    obtain ⟨hrp, hrps⟩ := List.forall_mem_cons.1 hr
    obtain ⟨u, hstep, hu, hinu⟩ := step_reset_specified s p (edges ps ++ rest) hin hrp
    obtain ⟨t, hrun, ht⟩ := ih u hrps hinu fun _ => hu
    exact ⟨t, (run_succ_eq_next _ s t).2 ⟨u, hstep, hrun⟩, ht⟩

/-- Settles O28: no command at the first of the edges, and the reset values after the last. -/
theorem resetEdgesTakeResetValues : Obligations.ResetEdgesTakeResetValues := by
  intro s ps rest hne hr hin
  refine ⟨?_, run_reset_edges s ps rest hr hin fun hnil => absurd hnil hne⟩
  obtain ⟨p, ps, rfl⟩ := List.exists_cons_of_ne_nil hne
  obtain ⟨-, hno⟩ := cmdReadyIsIdleAndNotReset
  exact hno s p _ hin (hr p List.mem_cons_self)

/-- A command accepted at the next edge is the next step's (rule R27). -/
theorem stepKind_of_accepts (s : State) (p : Pins) (he : currentEvent s = .edge p) (hseen : s.resetSeen = true)
    (ha : accepts p s = true) : stepKind s = .command (decode p.word) := by
  obtain ⟨hr, -, hst⟩ := (accepts_eq_true p s).1 ha
  simp [stepKind, he, edgeKind_running p s hr hseen, runningEdgeKind, hst, ha]

/-- Settles O29: the state after a reset edge, and `State.reset`, have the values that rule R261 reads off. -/
theorem resetLeavesCoreReady : Obligations.ResetLeavesCoreReady := by
  have hreset : SpecifiedResetValues State.reset := ⟨rfl, rfl, rfl, rfl, rfl, rfl, rfl⟩
  refine ⟨fun s p rest hin hr => ?_, hreset, hreset.outputs⟩
  obtain ⟨t, hstep, ht, hint⟩ := step_reset_specified s p rest hin hr
  obtain ⟨hseen, hst⟩ := ht.canAccept
  refine ⟨t, hstep, hst, ht.outputs, fun q rest' hrest hrq hvq => ?_⟩
  exact stepKind_of_accepts t q (currentEvent_cons t _ rest' (hint.trans hrest)) hseen
    ((accepts_eq_true q t).2 ⟨hrq, hvq, hst⟩)

/-! ### Before the first reset edge -/

/-- A command offered before the first reset edge (rule R263, log entry 4). -/
theorem step_offered_unreset (s : State) (p : Pins) (rest : List HostEvent) (hin : s.inputs = .edge p :: rest)
    (hseen : s.resetSeen = false) (hr : p.rst = false) (hv : p.cmdValid = true) :
    step s = .refused .commandBeforeReset := by
  simp [step, stepKind_cons_edge s p rest hin, edgeKind, hr, hseen, hv, otherStep]

/-- An edge before the first reset edge with nothing offered (rule R263, log entry 4). -/
theorem step_unreset (s : State) (p : Pins) (rest : List HostEvent) (hin : s.inputs = .edge p :: rest)
    (hseen : s.resetSeen = false) (hr : p.rst = false) (hv : p.cmdValid = false) :
    step s = .next (unresetCore (takeInput s)) := by
  simp [step, stepKind_cons_edge s p rest hin, edgeKind, hr, hseen, hv, otherStep]

/-- Settles O30: the three edges of a core that has not been reset. -/
theorem nothingBeforeFirstReset : Obligations.NothingBeforeFirstReset :=
  fun s p rest hin hseen =>
    ⟨step_offered_unreset s p rest hin hseen,
      fun hr hv => ⟨_, step_unreset s p rest hin hseen hr hv, unresetCore_resetSeen _, by simp [hin]⟩,
      step_reset_specified s p rest hin⟩

/-- A step answers a next state, or it is a command offered to a core that has not been reset (rules R231, R263). -/
theorem step_next_or_refused (s : State) :
    (∃ t, step s = .next t) ∨
    (s.resetSeen = false ∧ step s = .refused .commandBeforeReset ∧
      ∃ p, currentEvent s = .edge p ∧ p.rst = false ∧ p.cmdValid = true) := by
  obtain ⟨-, h⟩ | ⟨-, h⟩ | ⟨p, -, -, h⟩ | ⟨p, he, hr, hseen, hv, h⟩ | ⟨p, -, -, -, -, h⟩ | ⟨p, -, -, -, -, -, h⟩ |
    ⟨p, -, -, -, -, -, h⟩ | ⟨p, -, -, -, -, h⟩ | ⟨p, -, -, -, -, h⟩ := step_cases s
  · exact .inl ⟨_, h⟩
  · exact .inl ⟨_, h⟩
  · exact .inl ⟨_, h⟩
  · exact .inr ⟨hseen, h, p, he, hr, hv⟩
  all_goals exact .inl ⟨_, h⟩

/-- Settles O31: of the two outcomes of a step the refusal is that of an unreset core. -/
theorem onlyAnUnresetCoreStops : Obligations.OnlyAnUnresetCoreStops := by
  intro s
  obtain ⟨t, h⟩ | ⟨hseen, h, hoffer⟩ := step_next_or_refused s
  · simp [h]
  · simp [h, hseen, hoffer]

/-! ### The order of the first commands -/

/-- A KEY and its 16 edges load the schedule (rule R135). -/
theorem key_completes (s : State) (p : Pins) (ps : List Pins) (rest : List HostEvent) (key : Block) (hs : CanAccept s)
    (hp : Offers (.key key) p) (hlen : ps.length = 16) (hr : NoReset ps)
    (hin : s.inputs = .edge p :: (edges ps ++ rest)) :
    ∃ t, Sys2Proof.core.run 17 s = .next t ∧ HoldsSubkeys (schedule key) t ∧ t.inputs = rest := by
  obtain ⟨t, hrun, ht, hint⟩ := run_key s p ps rest key hs hp hlen.le hr hin
  rw [hlen] at hrun ht
  have hKS : t.KS = schedule key := eq_schedule_of_entries _ key fun j => by rw [ht.entries, if_pos j.isLt]
  exact ⟨t, hrun, ⟨⟨ht.resetSeen.trans hs.1, ht.st⟩, ht.keyValid, hKS⟩, hint⟩

/-- Settles O44: the reset edge, the 17 edges of KEY and the 17 of ENC, one after the other. -/
theorem bootOrderEncrypts : Obligations.BootOrderEncrypts := by
  intro s r p q ps qs rest key block hrst hp hq hlenp hlenq hrp hrq hin
  obtain ⟨u, hreset, hu, hinu⟩ := step_reset_specified s r _ hin hrst
  obtain ⟨v, hkeyRun, hv, hinv⟩ := key_completes u p ps _ key hu.canAccept hp hlenp hrp hinu
  obtain ⟨t, hencRun, hdout, hdv, -, hkv, herr, hst, -⟩ :=
    blockCommand_completes .encrypt v q qs rest block hv.canAccept hv.keyValid hq hlenq hrq hinv
  rw [hv.KS] at hdout
  refine ⟨t, ?_, hdout, hdv, hkv, herr, hst⟩
  calc Sys2Proof.core.run 35 s
      = Sys2Proof.core.run (17 + 17) u := run_succ_of_next 34 s u hreset
    _ = Sys2Proof.core.run 17 v := run_add 17 17 u v hkeyRun
    _ = .next t := hencRun

end Sys2Proof.Machine
end

section
/-!
CLAIM. What the host's duties give (rules R209, R272, R274): no NOKEY while they are kept, and a held offer is the command that
is accepted next.
-/
namespace Sys2Proof.Machine

/-- Every step takes the current input and no other. -/
theorem step_inputs (s t : State) (h : step s = .next t) : t.inputs = s.inputs.tail := by
  obtain ⟨-, hstep⟩ | ⟨-, hstep⟩ | ⟨p, -, -, hstep⟩ | ⟨p, -, -, -, -, hstep⟩ | ⟨p, -, -, -, -, hstep⟩ |
    ⟨p, -, -, -, -, -, hstep⟩ | ⟨p, -, -, -, -, -, hstep⟩ | ⟨p, -, -, -, -, hstep⟩ | ⟨p, -, -, -, -, hstep⟩ :=
    step_cases s <;> rw [hstep] at h <;> cases h
  all_goals simp

/-! ### No NOKEY -/

/-- What the host's duties keep: the core stays reset, its power stays on, and `err` is not NOKEY. -/
structure FreeOfNokey (s : State) : Prop where
  resetSeen : s.resetSeen = true
  err : s.err ≠ 1
  keepsPower : KeepsPower s.inputs

/-- A command accepted while the host keeps its KEY duty raises no NOKEY (rules R35, R274). -/
theorem afterExec_err_ne_nokey (s : State) (i : Instr) (hk : stepKind s = .command i) (hduty : keyBeforeBlock s = true) :
    (afterExec i (takeInput s)).err ≠ 1 := by
  rw [keyBeforeBlock, hk] at hduty
  rw [afterExec_err]
  cases i with
  | key data => simp
  | enc data => exact (if_pos hduty).trans_ne (by decide)
  | dec data => exact (if_pos hduty).trans_ne (by decide)
  | rsvd data => simp

/-- A step at which the host keeps its KEY duty. -/
theorem FreeOfNokey.step {s t : State} (h : FreeOfNokey s) (hduty : keyBeforeBlock s = true)
    (hstep : step s = .next t) : FreeOfNokey t := by
  have hpower : KeepsPower t.inputs := step_inputs s t hstep ▸ keepsPower_tail _ h.keepsPower
  obtain ⟨he, h'⟩ | ⟨-, h'⟩ | ⟨p, -, -, h'⟩ | ⟨p, -, -, -, -, h'⟩ | ⟨p, -, -, hunreset, -, h'⟩ |
    ⟨p, he, hr, -, hst, hv, h'⟩ | ⟨p, -, -, -, -, -, h'⟩ | ⟨p, -, -, -, -, h'⟩ | ⟨p, -, -, -, -, h'⟩ := step_cases s <;>
    rw [h'] at hstep <;> cases hstep
  · exact absurd (powerCycle_mem_of_currentEvent s he) h.keepsPower
  · exact ⟨h.resetSeen, h.err, hpower⟩
  · exact ⟨rfl, by simp, hpower⟩
  · exact absurd (hunreset.symm.trans h.resetSeen) (by decide)
  · have hkind := stepKind_of_accepts s p he h.resetSeen ((accepts_eq_true p s).2 ⟨hr, hv, hst⟩)
    exact ⟨(afterExec_resetSeen _ _).trans h.resetSeen, afterExec_err_ne_nokey s _ hkind hduty, hpower⟩
  all_goals exact ⟨h.resetSeen, h.err, hpower⟩

/-- Duties kept for `n + 1` steps are kept at the first and for the `n` after it. -/
theorem keepsContract_succ (n : Nat) (s t : State) (h : keepsContract (n + 1) s = true) (hstep : step s = .next t) :
    keyBeforeBlock s = true ∧ keepsContract n t = true := by
  simp only [keepsContract, hstep, Bool.and_eq_true] at h
  obtain ⟨⟨-, hduty⟩, hrest⟩ := h
  exact ⟨hduty, hrest⟩

theorem FreeOfNokey.run (n : Nat) {s t : State} (h : FreeOfNokey s) (hduties : keepsContract n s = true)
    (hrun : Sys2Proof.core.run n s = .next t) : FreeOfNokey t := by
  induction n generalizing s with
  | zero => cases hrun; exact h
  | succ n ih =>
    obtain ⟨u, hstep, hrest⟩ := (run_succ_eq_next n s t).1 hrun
    obtain ⟨hduty, hduties'⟩ := keepsContract_succ n s u hduties hstep
    exact ih (h.step hduty hstep) hduties' hrest

/-! ### A held offer -/

/-- The edge a step accepts a command at is the next edge among the inputs; no command is offered when none is left. -/
theorem nextEdge_of_accepts (s : State) (q : Pins) (he : currentEvent s = .edge q) (ha : accepts q s = true) :
    nextEdge s.inputs = some q := by
  obtain ⟨-, hv, -⟩ := (accepts_eq_true q s).1 ha
  unfold currentEvent at he
  cases hin : s.inputs with
  | nil => rw [hin] at he; cases he; cases hv
  | cons e rest => rw [hin] at he; cases he; rfl

theorem Pins.word_eq_of_sameWord (p q : Pins) (h : p.sameWord q = true) : p.word = q.word := by
  simp only [Pins.sameWord, Bool.and_eq_true, decide_eq_true_eq] at h
  obtain ⟨hop, hdata⟩ := h
  rw [Pins.word, Pins.word, hop, hdata]

/-- A host that holds an offer not accepted offers the same word at the next edge, if it offers any there (rule R272). -/
theorem word_eq_of_holdsOffer (s : State) (p q : Pins) (hin : currentEvent s = .edge p) (hv : p.cmdValid = true)
    (ha : accepts p s = false) (hold : holdsOffer s = true) (hnext : nextEdge s.inputs.tail = some q)
    (hvq : q.cmdValid = true) : p.word = q.word := by
  simp only [holdsOffer, hin, hnext, Pins.offers, hv, ha, hvq, Bool.not_true, Bool.false_or] at hold
  exact Pins.word_eq_of_sameWord p q hold

/-- Settles O59: the duties keep `FreeOfNokey`, and the edge accepted next is the one at which the offer is held. -/
theorem hostContractPreventsHazards : Obligations.HostContractPreventsHazards := by
  refine ⟨fun n s t hseen herr hpower hduties hrun =>
    (FreeOfNokey.run n ⟨hseen, herr, hpower⟩ hduties hrun).err, ?_⟩
  intro s t p rest i hin hv ha hold hstep hkind
  have hfit := stepKind_fits t
  rw [hkind] at hfit
  obtain ⟨q, he, haq, -, rfl⟩ := hfit
  obtain ⟨-, hvq, -⟩ := (accepts_eq_true q t).1 haq
  have hnext : nextEdge s.inputs.tail = some q := step_inputs s t hstep ▸ nextEdge_of_accepts t q he haq
  rw [word_eq_of_holdsOffer s p q (currentEvent_cons s _ rest hin) hv ha hold hnext hvq]

end Sys2Proof.Machine
end

section
/-!
CLAIM. The command word (rules R70, R71, R73, R75): a word is its two fields, so encoding and decoding undo each other, the opcode
map covers every word, and a number is decoded exactly when it fits. A word that the host places is what the next step executes.
-/
namespace Sys2Proof.Machine

/-! ### A word and its fields -/

/-- A command word is its two fields, put together again (rule R70). -/
theorem opField_append_dataField (w : CmdWord) : opField w ++ dataField w = w := by
  rw [opField, dataField, BitVec.extractLsb'_append_extractLsb'_eq_extractLsb' (by rfl)]
  exact BitVec.extractLsb'_eq_self

theorem bitVec_two_cases : ∀ op : BitVec 2, op = 0 ∨ op = 1 ∨ op = 2 ∨ op = 3 := by decide

/-- The fields that decoding read are the fields of the command (rules R71, R72). -/
theorem opcode_decodeFields (op : BitVec 2) (data : Block) : (decodeFields op data).opcode = op := by
  obtain rfl | rfl | rfl | rfl := bitVec_two_cases op <;> rfl

theorem data_decodeFields (op : BitVec 2) (data : Block) : (decodeFields op data).data = data := by
  obtain rfl | rfl | rfl | rfl := bitVec_two_cases op <;> rfl

theorem decodeFields_opcode_data (i : Instr) : decodeFields i.opcode i.data = i := by
  cases i <;> rfl

theorem decode_encode (i : Instr) : decode (encode i) = i :=
  (decode_append i.opcode i.data).trans (decodeFields_opcode_data i)

theorem encode_decode (w : CmdWord) : encode (decode w) = w := by
  rw [encode, decode, opcode_decodeFields, data_decodeFields]
  exact opField_append_dataField w

/-- Settles O3: a command is decided by its two fields, and a word is nothing but them. -/
theorem decodeEncodeRoundTrip : Obligations.DecodeEncodeRoundTrip := ⟨decode_encode, encode_decode⟩

/-! ### The opcode map -/

/-- The mask of the opcode map keeps the field `op` and clears the field `data` (rule R71). -/
theorem and_opMask (w : CmdWord) : w &&& 0x30000000000000000#66 = opField w ++ 0#64 := by
  have hmask : 0x30000000000000000#66 = BitVec.allOnes 2 ++ 0#64 := rfl
  calc w &&& 0x30000000000000000#66
      = (opField w ++ dataField w) &&& (BitVec.allOnes 2 ++ 0#64) := by rw [opField_append_dataField, hmask]
    _ = opField w ++ 0#64 := by rw [BitVec.and_append, BitVec.and_allOnes, BitVec.and_zero]

/-- Settles O1: by the four values of `op`, which the masked word shows. -/
theorem decodeFollowsOpcodeMap : Obligations.DecodeFollowsOpcodeMap := by
  refine ⟨fun data => ⟨decode_append _ data, decode_append _ data, decode_append _ data, decode_append _ data⟩, fun w => ?_⟩
  rw [and_opMask, decode, ← dataField]
  obtain h | h | h | h := bitVec_two_cases (opField w) <;> rw [h]
  · exact .inl ⟨rfl, rfl⟩
  · exact .inr (.inl ⟨rfl, rfl⟩)
  · exact .inr (.inr (.inl ⟨rfl, rfl⟩))
  · exact .inr (.inr (.inr ⟨rfl, rfl⟩))

/-! ### Numbers and raw commands -/

theorem decodeNat_of_lt (w : Nat) (h : w < 2 ^ 66) : decodeNat w = .ok (decode (BitVec.ofNat 66 w)) := if_pos h

theorem decodeNat_of_le (w : Nat) (h : 2 ^ 66 ≤ w) : decodeNat w = .error .widerThanCommandWord := if_neg h.not_gt

/-- The two fields of a command fit, and are read back (rules R70, R75). -/
theorem decodeRaw_toRaw (i : Instr) : decodeRaw i.toRaw = .ok i := by
  have hop : i.toRaw.opFits = true := decide_eq_true i.opcode.isLt
  have hdata : i.toRaw.dataFits = true := decide_eq_true i.data.isLt
  rw [decodeRaw, hop, hdata]
  simp [Instr.toRaw, decodeFields_opcode_data]

/-- A raw command with a field that does not fit is rejected for the first such field (log entry 9). -/
theorem decodeRaw_of_not_wellFormed (c : RawCommand) (h : c.wellFormed = false) : ∃ e, decodeRaw c = .error e := by
  cases hop : c.opFits with
  | false => exact ⟨.opTooWide, by simp [decodeRaw, hop]⟩
  | true =>
    have hdata : c.dataFits = false := by simpa [RawCommand.wellFormed, hop] using h
    exact ⟨.dataTooWide, by simp [decodeRaw, hop, hdata]⟩

/-- Settles O4: one lemma for each of the four clauses. -/
theorem onlySixtySixBitWordsDecode : Obligations.OnlySixtySixBitWordsDecode :=
  ⟨decodeNat_of_lt, decodeNat_of_le, decodeRaw_toRaw, decodeRaw_of_not_wellFormed⟩

/-! ### Table words -/

/-- A command word is read whole from a table of at least 66 bits. -/
theorem decodeTableWord_of_lt (nbits w : Nat) (hbits : 66 ≤ nbits) (hw : w < 2 ^ 66) :
    decodeTableWord nbits w = some (decode (BitVec.ofNat 66 w)) := by
  have hfits : w < 2 ^ nbits := hw.trans_le (Nat.pow_le_pow_right (by decide) hbits)
  rw [decodeTableWord, Nat.mod_eq_of_lt hfits, decodeNat_of_lt w hw]

/-- Settles O2: the four numbers are below 2^66, and their words are evaluated. -/
theorem writtenOutWordsDecode : Obligations.WrittenOutWordsDecode := by
  unfold Obligations.WrittenOutWordsDecode
  rw [decodeTableWord_of_lt _ _ le_rfl (by decide), decodeTableWord_of_lt _ _ le_rfl (by decide),
    decodeTableWord_of_lt _ _ le_rfl (by decide), decodeTableWord_of_lt _ _ le_rfl (by decide)]
  exact ⟨rfl, rfl, rfl, rfl⟩

/-- The word offered to the idle core is accepted at the very next edge (rule R27, log entry 7). -/
theorem step_offeringWord (s : State) (w : CmdWord) :
    step (offeringWord s w) = exec (decode w) { s with st := .idle, ctr := 0, resetSeen := true } := by
  have hword : decode (Pins.word ⟨false, true, opField w, dataField w⟩) = decode w :=
    congrArg decode (opField_append_dataField w)
  rw [step_accept (offeringWord s w) _ s.inputs rfl rfl rfl rfl rfl, hword, exec_eq]
  rfl

/-- Settles O45: both sides read the same word, since no bit of it is cut off. -/
theorem fetchWordRunsNext : Obligations.FetchWordRunsNext := by
  intro s nbits w hbits hw
  have hfits : w < 2 ^ nbits := hw.trans_le (Nat.pow_le_pow_right (by decide) hbits)
  refine ⟨decodeTableWord_of_lt nbits w hbits hw, ?_⟩
  rw [State.withFetchWord, Nat.mod_eq_of_lt hfits, step_offeringWord]

end Sys2Proof.Machine
end

section
/-!
CLAIM. The core's commands and functions, from rules proved above: the frame of the four commands, the permutations, the key
schedule's parity bits, and the invariant at reset.
-/
namespace Sys2Proof.Machine

/-- Settles O6: both orders are permutations by inverse tables. -/
theorem finalPermutationInvertsInitial : Obligations.FinalPermutationInvertsInitial :=
  fun v => ⟨permFP_permIP v, permIP_permFP v⟩

/-- Settles O14: PC1 drops the parity bits before anything else reads the key. -/
theorem parityBitsHaveNoEffect : Obligations.ParityBitsHaveNoEffect := schedule_eq_of_parity_variants

/-- Settles O38: the frames of `afterExec`; a command that does not start only raises an error. -/
theorem commandFrame : Obligations.CommandFrame := by
  intro i s
  refine ⟨afterExec i s, exec_eq i s, afterExec_KS i s, afterExec_dout i s, afterExec_resetSeen i s, afterExec_freeIx i s,
    afterExec_inputs i s, afterExec_key_frame i s, afterExec_block_frame i s, fun hstarts => ?_⟩
  obtain ⟨e, he⟩ := afterExec_of_not_starts i s hstarts
  rw [he]
  exact ⟨rfl, rfl⟩

/-- Settles O33: an idle core with `err` = 0, `ctr` = 0 and no key. -/
theorem coreInvariantAtReset : Obligations.CoreInvariantAtReset :=
  coreInv_of_idle State.reset rfl (by unfold ErrLegal; decide) rfl (fun hkey => nomatch hkey)

end Sys2Proof.Machine
end

section
/-!
CLAIM. The host's buffer operations return what the pure functions return (rules R204 to R209), with a KEY in every call or with
KEY skipped when the key is unchanged.
-/
namespace Sys2Proof.Machine

/-! ### A KEY in every call -/

/-- Settles O50: from the driver's run. -/
theorem driverEncryptComputesBuffer : Obligations.DriverEncryptComputesBuffer := by
  intro m k s hs
  obtain ⟨t, hrun, ⟨hseen, hst⟩, hkey, hKS⟩ := driverEncrypt_next m k s hs
  exact ⟨t, hrun, encryptBuffer_length m k, hseen, hst, hkey, hKS⟩

/-- The only error of `Unpad` is a corrupted padding (rule R203). -/
theorem unpad_ne_coreError (p : List Byte) (e : BitVec 2) : unpad p ≠ .error (.coreError e) := by
  unfold unpad
  split
  · simp
  · split <;> simp

/-- Settles O51: from the driver's run; the pure answer is that of `Unpad`. -/
theorem driverDecryptComputesBuffer : Obligations.DriverDecryptComputesBuffer := by
  intro c k s hs hc
  obtain ⟨t, hrun, ⟨hseen, hst⟩, hkey, hKS⟩ := driverDecrypt_next c k s hs hc
  refine ⟨⟨t, hrun, hseen, hst, hkey, hKS⟩, fun e => ?_⟩
  rw [decryptBuffer_aligned c k hc]
  exact unpad_ne_coreError _ e

/-! ### A host that skips KEY -/

/-- A core that has been reset and holds a complete subkey file, and is idle or runs a block over it: what a host that skips KEY
starts from. -/
structure KeepsSubkeys (sk : Vector Subkey 16) (s : State) : Prop where
  resetSeen : s.resetSeen = true
  not_keygen : s.st ≠ .keygen
  keyValid : s.keyValid = true
  KS : s.KS = sk

theorem HoldsSubkeys.keeps {sk : Vector Subkey 16} {s : State} (h : HoldsSubkeys sk s) : KeepsSubkeys sk s := by
  obtain ⟨⟨hseen, hst⟩, hkey, hKS⟩ := h
  exact ⟨hseen, by simp [hst], hkey, hKS⟩

/-- With the invariant, `key_valid` = 1 rules KEYGEN out (rule R130). -/
theorem CoreInv.keepsSubkeys {s : State} (h : CoreInv s) (hs : s.resetSeen = true) (hkey : s.keyValid = true) :
    KeepsSubkeys s.KS s := by
  obtain ⟨-, -, hkeygen, -, -⟩ := h hs
  refine ⟨hs, fun hst => ?_, hkey, rfl⟩
  obtain ⟨hkey', -⟩ := hkeygen hst
  simp [hkey] at hkey'

/-- A busy core that keeps its subkeys is in ROUND, where an edge changes neither `KS` nor `key_valid` (rule R176). -/
theorem KeepsSubkeys.clockWith_busy {sk : Vector Subkey 16} {s : State} (h : KeepsSubkeys sk s) (p : Pins)
    (hr : p.rst = false) (hst : s.st ≠ .idle) :
    ∃ t, clockWith p s = .next t ∧ KeepsSubkeys sk t ∧ busyFor t = busyFor s - 1 := by
  obtain ⟨hs, hne, hkey, hKS⟩ := h
  have hround : s.st = .round := by
    cases h : s.st with
    | idle => exact absurd h hst
    | keygen => exact absurd h hne
    | round => rfl
  exact ⟨_, clockWith_round p s hs hr hround, ⟨hs, roundEdge_st_ne_keygen _, hkey, hKS⟩,
    busyFor_roundEdge { s with inputs := [] } hround⟩

/-- The wait for `cmd_ready` keeps the subkeys (rules R176, R270). -/
theorem KeepsSubkeys.driveUntilReady {sk : Vector Subkey 16} {s : State} (h : KeepsSubkeys sk s) (p : Pins)
    (hr : p.rst = false) : ∃ t, driveUntilReady p busyEdges s = .next t ∧ HoldsSubkeys sk t := by
  obtain ⟨t, hwait, ⟨hs, -, hkey, hKS⟩, hbusy⟩ := driveUntilReady_countdown
    (Countdown := fun k t => KeepsSubkeys sk t ∧ busyFor t = k) p hr
    (fun t ⟨_, hb⟩ => idle_of_busyFor_eq_zero t hb)
    (fun k t ⟨ht, hb⟩ => by
      have hst : t.st ≠ .idle := fun h => by simp [busyFor_of_idle t h] at hb
      obtain ⟨u, hclock, hu, hbu⟩ := ht.clockWith_busy p hr hst
      exact ⟨hst, u, hclock, hu, by omega⟩)
    (busyFor s) busyEdges (busyFor_le s) s ⟨h, rfl⟩
  exact ⟨t, hwait, ⟨hs, idle_of_busyFor_eq_zero t hbusy⟩, hkey, hKS⟩

/-- A command issued to a busy core does what it does on the idle core that the wait leaves. -/
theorem runCommand_eq_of_wait (i : Instr) (s t : State) (hwait : driveUntilReady (Pins.offer i) busyEdges s = .next t)
    (ht : CanAccept t) : runCommand i s = runCommand i t := by
  rw [runCommand_eq_wait i s t hwait ht, runCommand_eq_wait i t t (driveUntilReady_idle _ _ t rfl ht.2) ht]

/-- The block loop on a core that may still run a block: its first command waits, and without a block nothing is issued. -/
theorem KeepsSubkeys.blockLoop {sk : Vector Subkey 16} {s : State} (h : KeepsSubkeys sk s) (m : Mode) (n : Nat)
    (p : List Byte) :
    ∃ t, blockLoop (blockCommand m) n p s = .next (t, .ok (mapBlocks (cryptBlock m sk) n p)) ∧ KeepsSubkeys sk t := by
  cases n with
  | zero => exact ⟨s, rfl, h⟩
  | succ n =>
    obtain ⟨u, hwait, hu⟩ := h.driveUntilReady (Pins.offer (blockCommand m (blockOfBytes (p.take 8)))) rfl
    obtain ⟨t, hloop, ht⟩ := blockLoop_blockCommand m (n + 1) p hu
    refine ⟨t, ?_, ht.keeps⟩
    rw [Machine.blockLoop] at hloop ⊢
    rwa [runCommand_eq_of_wait _ s u hwait hu.canAccept]

theorem KeepsSubkeys.driverEncryptLoaded {k : List Byte} {s : State} (h : KeepsSubkeys (schedule (keyOperand k)) s)
    (m : List Byte) :
    ∃ t, driverEncryptLoaded m s = .next (t, .ok (encryptBuffer m k)) ∧ KeepsSubkeys (schedule (keyOperand k)) t :=
  h.blockLoop .encrypt ((pad m).length / 8) (pad m)

theorem KeepsSubkeys.decryptAligned {k : List Byte} {s : State} (h : KeepsSubkeys (schedule (keyOperand k)) s)
    (c : List Byte) (hc : c.length % 8 = 0) :
    ∃ t, decryptAligned c s = .next (t, decryptBuffer c k) ∧ KeepsSubkeys (schedule (keyOperand k)) t := by
  obtain ⟨t, hloop, ht⟩ := h.blockLoop .decrypt (c.length / 8) c
  refine ⟨t, ?_, ht⟩
  rw [decryptBuffer_aligned c k hc]
  exact congrArg (andThen · _) hloop

/-- Skipped or not, after the KEY the host goes on over the schedule of the call's key (rule R209, log entry 17). -/
theorem withKeyReused_next (last : Option Block) (k : List Byte) (s : State) (rest : State → DriverResult)
    (hs : s.resetSeen = true) (hinv : CoreInv s)
    (hlast : ∀ key, last = some key → s.keyValid = true → s.KS = schedule key) :
    ∃ t, withKeyReused last k s rest = rest t ∧ KeepsSubkeys (schedule (keyOperand k)) t := by
  obtain ⟨hsame, hkey, hskip⟩ | ⟨-, hissue⟩ := withKeyReused_cases last k s rest hs
  · exact ⟨s, hskip, hlast _ hsame hkey ▸ hinv.keepsSubkeys hs hkey⟩
  · obtain ⟨t, hrun, ht⟩ := withKey_next k s rest hs
    exact ⟨t, hissue.trans hrun, ht.keeps⟩

theorem driverDecryptReusing_aligned (last : Option Block) (c k : List Byte) (s : State) (h : c.length % 8 = 0) :
    driverDecryptReusing last c k s = withKeyReused last k s (decryptAligned c) := if_neg (by omega)

/-- Settles O60: whether KEY is issued or skipped, the loop runs over the schedule of `k`. -/
theorem skippingKeyGivesSameBuffers : Obligations.SkippingKeyGivesSameBuffers := by
  refine ⟨fun last m c k s hs hinv hlast => ⟨?_, fun hc => ?_⟩, fun last c k s hc =>
    ⟨driverDecryptReusing_unaligned last c k s hc, driverDecryptLoaded_unaligned c s hc⟩⟩
  · obtain ⟨u, hreuse, hu⟩ := withKeyReused_next last k s (driverEncryptLoaded m) hs hinv hlast
    obtain ⟨t, hloaded, hseen, -, hkey, hKS⟩ := hu.driverEncryptLoaded m
    exact ⟨t, hreuse.trans hloaded, hseen, hkey, hKS⟩
  · obtain ⟨u, hreuse, hu⟩ := withKeyReused_next last k s (decryptAligned c) hs hinv hlast
    obtain ⟨t, hloaded, hseen, -, hkey, hKS⟩ := hu.decryptAligned c hc
    exact ⟨t, (driverDecryptReusing_aligned last c k s hc).trans (hreuse.trans hloaded), hseen, hkey, hKS⟩

end Sys2Proof.Machine
end

section
/-!
CLAIM. Host scripts (rules R75, R76, R263): what each line does before the first reset edge, and that a command line and an
assembled word are read back as their command, the digits of either case.
-/
namespace Sys2Proof.Machine

/-! ### Before the first reset edge -/

theorem clockWith_offer_unreset (i : Instr) (s : State) (h : s.resetSeen = false) :
    clockWith (Pins.offer i) s = .refused .commandBeforeReset :=
  step_offered_unreset { s with inputs := [.edge (Pins.offer i)] } (Pins.offer i) [] rfl h rfl rfl

/-- A command offered before the first reset edge is refused at its first edge, whether `cmd_ready` happens to be 1, so that it
would be the acceptance edge, or 0 (rule R263, log entry 4). -/
theorem offerCommand_unreset (i : Instr) (s : State) (h : s.resetSeen = false) :
    offerCommand i s = .refused .commandBeforeReset := by
  have hclock := clockWith_offer_unreset i s h
  rw [offerCommand, busyEdges, driveUntilReady]
  split
  · exact hclock
  · rw [hclock]
    rfl

theorem waitReady_unreset (s : State) (h : s.resetSeen = false) : waitReady s = .refused .readBeforeReset :=
  if_neg (by simp [h])

/-- Settles O58: a reset edge has its effect in any state; the other lines are refused at their first edge or read. -/
theorem scriptsStartWithReset : Obligations.ScriptsStartWithReset := by
  intro s h
  have hwait := waitReady_unreset s h
  obtain ⟨t, hstep, ht, -⟩ := step_reset_specified { s with inputs := [.edge Pins.reset] } Pins.reset [] rfl rfl
  exact ⟨⟨t, congrArg withoutSample hstep, ht⟩, congrArg withoutSample hwait, congrArg (andThen · readOutputs) hwait,
    fun i => congrArg withoutSample (offerCommand_unreset i s h),
    fun text => congrArg withoutSample (offerCommand_unreset (keystrCommand text) s h)⟩

/-! ### Hexadecimal digits -/

theorem hexValue_hexChar : ∀ d : BitVec 4, hexValue (hexChar d) = some d.toNat := by decide

/-- Digits of either case have the same value, and no other letter is a digit (rule R75). -/
theorem hexValue_toLower (ch : Char) : hexValue ch.toLower = hexValue ch := by
  by_cases hupper : ch.isUpper
  · obtain ⟨hA, hZ⟩ : 65 ≤ ch.toNat ∧ ch.toNat ≤ 90 := by
      simpa [Char.isUpper, UInt32.le_iff_toNat_le] using hupper
    have hvalid : (ch.toNat + 32).isValidChar := .inl (by omega)
    have hlower : ch.toLower.toNat = ch.toNat + 32 := by
      rw [Char.toLower_eq_of_isUpper hupper, Char.toNat_ofNat, if_pos hvalid]
    rw [hexValue, hexValue, hlower]
    grind
  · rw [Char.toLower_eq_of_not_isUpper hupper]

/-- A number is decided by the values of its digits. -/
theorem hexNumber_congr {a b : List Char} (h : a.map hexValue = b.map hexValue) : hexNumber a = hexNumber b := by
  have hvalues : ∀ l : List Char, hexNumber l =
      (l.map hexValue).foldl (fun acc v => acc.bind fun n => v.map fun d => 16 * n + d) (some 0) :=
    fun l => by rw [List.foldl_map, hexNumber]
  rw [hvalues, hvalues, h]

/-- Digits written in either case have the values of the printed ones. -/
theorem map_hexValue_of_written {printed written : List Char}
    (h : List.Forall₂ (fun printed written => written = printed ∨ written = printed.toLower) printed written) :
    written.map hexValue = printed.map hexValue := by
  induction h with
  | nil => rfl
  | cons hdigit _ ih => obtain rfl | rfl := hdigit <;> simp [hexValue_toLower, ih]

theorem hexNumber_concat (digits : List Char) (ch : Char) :
    hexNumber (digits ++ [ch]) = (hexNumber digits).bind fun n => (hexValue ch).map fun d => 16 * n + d := by
  rw [hexNumber, List.foldl_append]
  rfl

/-- The first `n` digits of an operand are the number of its upper `4 * n` bits. -/
theorem hexNumber_leading_digits (data : Block) (n : Nat) (hn : n ≤ 16) :
    hexNumber ((List.range n).map fun k => hexChar (data.extractLsb' (60 - 4 * k) 4)) =
      some (data.toNat / 2 ^ (64 - 4 * n)) := by
  induction n with
  | zero => exact congrArg some (Nat.div_eq_of_lt data.isLt).symm
  | succ n ih =>
    have hshift : 64 - 4 * n = (60 - 4 * n) + 4 := by omega
    have hlast : 64 - 4 * (n + 1) = 60 - 4 * n := by omega
    rw [List.range_succ, List.map_append, List.map_singleton, hexNumber_concat, ih (by omega), hexValue_hexChar,
      BitVec.extractLsb'_toNat, Nat.shiftRight_eq_div_pow, hshift, hlast, Nat.pow_add, ← Nat.div_div_eq_div_mul]
    exact congrArg some (Nat.div_add_mod _ 16)

theorem hexNumber_hexDigits (data : Block) : hexNumber (hexDigits data) = some data.toNat := by
  rw [hexDigits, hexNumber_leading_digits data 16 le_rfl, Nat.sub_self, Nat.pow_zero, Nat.div_one]

theorem hexDigits_length (data : Block) : (hexDigits data).length = 16 := rfl

/-! ### Command lines -/

/-- A mnemonic's operand of 16 digits is read, when nothing follows it (rule R75). -/
theorem parseCommand_digits (command : Block → Instr) (data : Block) (digits : List Char) (hlen : digits.length = 16)
    (hnum : hexNumber digits = some data.toNat) :
    parseCommand command (' ' :: '0' :: 'x' :: digits) = some (.command (command data)) := by
  have hoperand : parseOperand ('0' :: 'x' :: digits) = some (data, []) := by
    rw [parseOperand, if_pos hlen.ge, List.take_of_length_le hlen.le, List.drop_of_length_le hlen.le, hnum, Option.map_some,
      BitVec.ofNat_toNat, BitVec.setWidth_eq]
  have hskip : skipSpaces ('0' :: 'x' :: digits) = '0' :: 'x' :: digits := rfl
  rw [parseCommand, hskip, hoperand]
  rfl

/-- A command line is read by its mnemonic and its digits (rule R75). -/
theorem parseLine_digits (i : Instr) (digits : List Char) (hlen : digits.length = 16)
    (hnum : hexNumber digits = some i.data.toNat) :
    parseLine (mnemonicText i ++ [' ', '0', 'x'] ++ digits) = some (.command i) := by
  cases i with
  | key data => exact parseCommand_digits .key data digits hlen hnum
  | enc data => exact parseCommand_digits .enc data digits hlen hnum
  | dec data => exact parseCommand_digits .dec data digits hlen hnum
  | rsvd data => exact parseCommand_digits .rsvd data digits hlen hnum

/-- Settles O55: the printed digits are 16 and their number is the operand; the examples are evaluated. -/
theorem printedCommandsParse : Obligations.PrintedCommandsParse :=
  ⟨fun i => parseLine_digits i _ (hexDigits_length _) (hexNumber_hexDigits _), by decide, by decide⟩

/-- An assembled word is read as the raw form of its command (rule R75). -/
theorem readWord_printWord (i : Instr) : readWord (printWord i) = some i.toRaw := by
  have hop : hexValue (hexChar (i.opcode.setWidth 4)) = some i.opcode.toNat := by
    rw [hexValue_hexChar, BitVec.toNat_setWidth_of_le (by decide)]
  rw [printWord, readWord, if_pos (hexDigits_length _), hop, hexNumber_hexDigits]
  rfl

/-- Settles O57: a change of case changes no digit's value. -/
theorem digitsOfEitherCaseAndWordsRead : Obligations.DigitsOfEitherCaseAndWordsRead := by
  refine ⟨fun i digits h => ?_, fun i => ?_⟩
  · exact parseLine_digits i digits (h.length_eq.symm.trans (hexDigits_length _))
      ((hexNumber_congr (map_hexValue_of_written h)).trans (hexNumber_hexDigits _))
  · rw [readWord_printWord, Option.map_some, decodeRaw_toRaw]

end Sys2Proof.Machine
end
